-- ==== Sys2Proof/Word.lean ====
section
/-! DEFINITION. The word types of the machine (spec/00_scope.md R8 to R10: every value is unsigned, bit 0 is the least
significant). A register index, a row count and a key index are no bit vectors: nothing masks or shifts them. -/

namespace Sys2Proof

/-- An 8-bit value: a register, a timer, a byte of memory (R21, R29, R50). -/
abbrev Byte := BitVec 8

/-- A 16-bit value: an opcode, the program counter, the index register, a stack entry (R25, R26, R28, R70). -/
abbrev Word := BitVec 16

/-- A general register's number, 0 to 15: V0 to VF (R21). -/
abbrev Reg := Fin 16

/-- The number of VF, the register that doubles as the flag (R24). -/
def VF : Reg := 15

/-- The number of V0, the jump offset of BNNN (R22, R103). -/
def V0 : Reg := 0

/-- A key's number, 0 to 15 (R30). -/
abbrev Key := Fin 16

end Sys2Proof
end

