-- ==== Sys2Proof/Machine/Font.lean ====
section
/-! DEFINITION. The default of the parameter FONTSET, the 80 bytes that a reset loads at 0x000 to 0x04F: the table of
spec/10_state.md R33, byte for byte (from general knowledge, D9, G1; PRESUMED, log 4). The parameter itself is `State.font`. -/

namespace Sys2Proof.Machine

/-- The glyphs of the digits 0 to 7, five bytes each. -/
def fontLow : List Byte :=
  [0xF0, 0x90, 0x90, 0x90, 0xF0] ++ [0x20, 0x60, 0x20, 0x20, 0x70] ++
  [0xF0, 0x10, 0xF0, 0x80, 0xF0] ++ [0xF0, 0x10, 0xF0, 0x10, 0xF0] ++
  [0x90, 0x90, 0xF0, 0x10, 0x10] ++ [0xF0, 0x80, 0xF0, 0x10, 0xF0] ++
  [0xF0, 0x80, 0xF0, 0x90, 0xF0] ++ [0xF0, 0x10, 0x20, 0x40, 0x40]

/-- The glyphs of the digits 8 to F. -/
def fontHigh : List Byte :=
  [0xF0, 0x90, 0xF0, 0x90, 0xF0] ++ [0xF0, 0x90, 0xF0, 0x10, 0xF0] ++
  [0xF0, 0x90, 0xF0, 0x90, 0xF0] ++ [0xE0, 0x90, 0xE0, 0x90, 0xE0] ++
  [0xF0, 0x80, 0x80, 0x80, 0xF0] ++ [0xE0, 0x90, 0x90, 0x90, 0xE0] ++
  [0xF0, 0x80, 0xF0, 0x80, 0xF0] ++ [0xF0, 0x80, 0xF0, 0x80, 0x80]

/-- The bytes of the default font: glyph d at places 5 * d to 5 * d + 4. -/
def fontBytes : List Byte := fontLow ++ fontHigh

/-- The default of FONTSET (R33). -/
def fontset : Vector Byte 80 := Vector.ofFn fun j => fontBytes.getD j.val 0

end Sys2Proof.Machine
end

