-- ==== Sys2Proof/Config.lean ====
section
/-! DEFINITION. What is fixed for the machine (spec/00_scope.md R6), the events that can reach it, and the two free values:
the random byte of CXKK and the sequence of events that the surroundings choose. -/

namespace Sys2Proof.Machine

/-- The five events that change the machine (spec/40_cycle_driver.md R90, spec/10_state.md R38). A key index outside 0 to 15
is not an event of this machine (R206). -/
inductive Event where
  /-- One invocation of the Cycle Driver (R91). -/
  | cycle
  /-- One timer tick (R180). -/
  | tick
  /-- Key k is reported pressed (R183, R184). -/
  | keyPress (k : Key)
  /-- Key k is reported released (R185). -/
  | keyRelease (k : Key)
  /-- A fresh session with this ROM (R200). -/
  | reset (rom : List Byte)
  deriving DecidableEq, Repr, Inhabited

end Sys2Proof.Machine

namespace Sys2Proof.Config

/-- The memory has 4096 bytes, addresses 0x000 to 0xFFF (R6, R50). -/
def memorySize : Nat := 4096

/-- The largest address a 16-bit fetch may start at (R27, R92). -/
def lastFetch : Nat := 4094

/-- Where a ROM is loaded, and the program counter after reset (R6, R201). -/
def romBase : Nat := 0x200

/-- The longest ROM: 4096 - 512 bytes (R6, R177). -/
def maxRom : Nat := 3584

/-- The return stack holds 16 addresses (R28). -/
def stackDepth : Nat := 16

/-- The byte `random_byte()` gives at the n-th draw: a FREE VALUE, any byte at every draw (spec/43_alu.md R131, U4, D14;
log 3). It has no body, so no proof can tell what it is. -/
opaque randomByte : Nat → Byte

/-- The n-th event of the sequence that the surroundings choose: a FREE VALUE, any event at every place, so any infinite
sequence (spec/40_cycle_driver.md R90, spec/60_exceptions.md R182, U6, D15; log 2). It has no body. -/
opaque surroundings : Nat → Machine.Event

end Sys2Proof.Config
end

