-- ==== Sys2Proof/Machine/State.lean ====
section
/-! DEFINITION. The Emulator State (spec/10_state.md R20 to R35) as plain data, the reasons a step can stop, and the state
after reset (R41, R200). -/

namespace Sys2Proof.Machine

/-- Memory: the bytes that differ from what an unlisted address reads as, by rising address (R50; `Memory.wf`). -/
abbrev Memory := List Host.Cell

/-- The display buffer: 32 rows of 64 one-bit pixels (R6, R32). Bit `col` of row `row` is `disp[row][col]`; the pixels are
read through `Display.pixel` and changed by exclusive OR alone, so a row is a word of bits. -/
abbrev Display := Vector (BitVec 64) 32

/-- The causes of a fatal error, each with the value it records (spec/60_exceptions.md R170). -/
inductive Cause where
  /-- Fetch with pc above 4094, or DXYN, FX33, FX55, FX65 past address 0xFFF; records the offending address (R171). -/
  | outOfBoundsAccess (addr : Nat)
  /-- 2NNN with sp = 16 (R172). -/
  | stackOverflow
  /-- 00EE with sp = 0 (R173). -/
  | stackUnderflow
  /-- A fetched word that selects no row; records the word (R174). -/
  | unknownOpcode (op : Word)
  /-- A reset with a ROM of more than 3584 bytes; records the length (R177). -/
  | romTooLarge (length : Nat)
  /-- EX9E or EXA1 with Vx above 15; records Vx (R178, the spec's own cause, D11). -/
  | keyIndexOutOfRange (vx : Byte)
  deriving DecidableEq, Repr

/-- What the fault latch records: the cause, the pc of the instruction, and the fetched word, absent for a fetch fault
(R35, R175). -/
structure FaultRecord where
  cause : Cause
  atPc : Word
  opcode : Option Word
  deriving DecidableEq, Repr

/-- Why a step has no next state. -/
inductive Fault where
  /-- Raised by the event `reset rom` alone, with the cause `romTooLarge`: a ROM of more than 3584 bytes creates no session,
  so no state exists afterwards (R177, U10; log 21). Safe: the machine has no state to go on with. Every other fatal error
  of the spec is a next state with the fault latch set (R175). -/
  | noSession (cause : Cause)
  deriving DecidableEq, Repr

/-- Why an instruction is refused. -/
inductive Refusal where
  /-- Raised by an arm of `exec` that has no meaning yet; no arm is left so. Safe: nothing is claimed of it. -/
  | notModelled (mnemonic : String)
  deriving DecidableEq, Repr

/-- The events still to come (spec/40_cycle_driver.md R90: any finite or infinite sequence, chosen by the surroundings and
not by the machine; log 2). -/
inductive Schedule where
  /-- Cycles for ever. -/
  | onlyCycles
  /-- The endless sequence that the surroundings choose, from its event of this number on: a free value, so any sequence. -/
  | free (moment : Nat)
  /-- This event, and then the others. -/
  | upcoming (e : Event) (others : Schedule)
  deriving DecidableEq, Repr

/-- The whole state of the machine (R20), and three fields of the model's own (`draws`, `schedule`, `font`). -/
structure State where
  /-- V0 to VF (R21); V[15] is the flag (R24). -/
  v : Vector Byte 16
  /-- The index register I (R25). -/
  i : Word
  /-- The program counter (R26, R27). -/
  pc : Word
  /-- The number of stack entries in use, 0 to 16 (R28). -/
  sp : Fin 17
  /-- The return stack (R28). -/
  stack : Vector Word 16
  /-- The delay timer DT (R29). -/
  dt : Byte
  /-- The sound timer ST (R29). -/
  st : Byte
  /-- The key latch (R30). -/
  keys : Vector Bool 16
  /-- `awaiting_input`: the register that a pending FX0A will write (R31). -/
  wait : Option Reg
  /-- The display buffer (R32). -/
  disp : Display
  /-- The memory (R33, R50). -/
  mem : Memory
  /-- `cycles_emulated` (R34). -/
  cycles : Nat
  /-- The fault latch (R35). -/
  fault : Option FaultRecord
  /-- The model's own: how many random bytes CXKK has taken (log 3). -/
  draws : Nat
  /-- The model's own: the events still to come (log 2). -/
  schedule : Schedule
  /-- The model's own: the parameter FONTSET, the 80 bytes that a reset loads at 0x000 (R7, R33, D9; log 4). No instruction
  and no event writes it. -/
  font : Vector Byte 80
  deriving DecidableEq, Repr

/-- The machine right after a reset with the empty ROM and the default font (R41, R200): memory lists nothing, so every byte reads as the reset
leaves it. -/
def State.reset : State where
  v := Vector.replicate 16 0
  i := 0
  pc := 0x200
  sp := 0
  stack := Vector.replicate 16 0
  dt := 0
  st := 0
  keys := Vector.replicate 16 false
  wait := none
  disp := Vector.replicate 32 0
  mem := []
  cycles := 0
  fault := none
  draws := 0
  schedule := .onlyCycles
  font := fontset

/-- What a meaning, an event or a step answers. -/
abbrev Out := Host.Outcome State Fault Refusal

end Sys2Proof.Machine
end

