-- ==== Sys2Proof/Machine/Memory.lean ====
section
/-! DEFINITION. The memory as data (spec/20_memory.md R50, R52, R55, R58): reading and writing one byte, the canonical form,
storing a run of bytes, and the memory after a ROM is loaded. -/

namespace Sys2Proof.Machine

/-- What an address that memory does not list reads as: the contents after a reset with the empty ROM and the default font,
the table of R33 at 0x000 to 0x04F (log 4) and 0 elsewhere (R41, R200; the 0 is D10, log 5). -/
def resetByte (a : Nat) : Byte := fontBytes.getD a 0

/-- The byte listed for an address, if one is. -/
def Memory.find : Memory → Nat → Option Byte
  | [], _ => none
  | (k, b) :: m, a => if k = a then some b else Memory.find m a

/-- One byte of memory (R57: a read changes nothing). -/
def Memory.peek (m : Memory) (a : Nat) : Byte := (Memory.find m a).getD (resetByte a)

/-- Lists a byte at the front, unless it is what the address reads as anyway. -/
def Memory.listed (a : Nat) (b : Byte) (m : Memory) : Memory := if b = resetByte a then m else (a, b) :: m

/-- Writes one byte, keeping the canonical form. -/
def Memory.put : Memory → Nat → Byte → Memory
  | [], a, b => Memory.listed a b []
  | (k, c) :: m, a, b =>
    if a < k then Memory.listed a b ((k, c) :: m)
    else if a = k then Memory.listed a b m
    else (k, c) :: Memory.put m a b

/-- Every address listed is at least `lo` and below 4096, they rise strictly, and no entry is what its address reads as. -/
def Memory.wfFrom : Nat → Memory → Bool
  | _, [] => true
  | lo, (k, b) :: m => lo ≤ k && k < Config.memorySize && b != resetByte k && Memory.wfFrom (k + 1) m

/-- The canonical form: two memories in it that read alike are equal. -/
def Memory.wf (m : Memory) : Bool := Memory.wfFrom 0 m

/-- Stores bytes at ascending addresses (R53, R61). -/
def Memory.store : Memory → Nat → List Byte → Memory
  | m, _, [] => m
  | m, a, b :: bs => Memory.store (Memory.put m a b) (a + 1) bs

/-- The `n` bytes from an address on, in ascending order. -/
def Memory.load (m : Memory) (a n : Nat) : List Byte := (List.range n).map fun k => m.peek (a + k)

/-- The reset contents with bytes laid over them from an address on (R201). -/
def Memory.ofRom : Nat → List Byte → Memory
  | _, [] => []
  | a, b :: bs => Memory.listed a b (Memory.ofRom (a + 1) bs)

/-- The memory of a fresh session: FONTSET from 0x000 on, the ROM from 0x200 on, 0 elsewhere (R200 to R202). -/
def Memory.fresh (font : Vector Byte 80) (rom : List Byte) : Memory :=
  (Memory.ofRom Config.romBase rom).store 0 font.toList

/-- The lowest address of the range of `n` bytes from `a` on that is 4096 or more, if one is; the range of no bytes has none
(R56, R171: `max(I, 4096)`). Addresses are natural numbers and do not wrap (R55, D27). -/
def badAddress (a n : Nat) : Option Nat :=
  if n = 0 ∨ a + n ≤ Config.memorySize then none else some (max a Config.memorySize)

end Sys2Proof.Machine
end

