-- ==== Sys2Proof/Syntax.lean ====
section
/-! DEFINITION. The 34 instructions, one constructor per row of spec/opcode_table.json, in the table's order
(spec/30_encoding.md R75). The fields carry their ranges (R72): X and Y are register numbers, N is a count 0 to 15, KK an
8-bit constant, NNN a 12-bit address. -/

namespace Sys2Proof

/-- An instruction. In `shrVx` and `shlVx` the second register is the Y field, which the encoding holds and the instruction
ignores (R76). In `ldMemVx` and `ldVxMem` X is a count, the last register moved (R144, R145). -/
inductive Instr where
  /-- 00E0 -/
  | cls
  /-- 00EE -/
  | ret
  /-- 1NNN -/
  | jp (nnn : BitVec 12)
  /-- 2NNN -/
  | call (nnn : BitVec 12)
  /-- 3XKK -/
  | seVxKk (x : Reg) (kk : Byte)
  /-- 4XKK -/
  | sneVxKk (x : Reg) (kk : Byte)
  /-- 5XY0 -/
  | seVxVy (x y : Reg)
  /-- 6XKK -/
  | ldVxKk (x : Reg) (kk : Byte)
  /-- 7XKK -/
  | addVxKk (x : Reg) (kk : Byte)
  /-- 8XY0 -/
  | ldVxVy (x y : Reg)
  /-- 8XY1 -/
  | orVxVy (x y : Reg)
  /-- 8XY2 -/
  | andVxVy (x y : Reg)
  /-- 8XY3 -/
  | xorVxVy (x y : Reg)
  /-- 8XY4 -/
  | addVxVy (x y : Reg)
  /-- 8XY5 -/
  | subVxVy (x y : Reg)
  /-- 8XY6 -/
  | shrVx (x y : Reg)
  /-- 8XY7 -/
  | subnVxVy (x y : Reg)
  /-- 8XYE -/
  | shlVx (x y : Reg)
  /-- 9XY0 -/
  | sneVxVy (x y : Reg)
  /-- ANNN -/
  | ldINnn (nnn : BitVec 12)
  /-- BNNN -/
  | jpV0Nnn (nnn : BitVec 12)
  /-- CXKK -/
  | rndVxKk (x : Reg) (kk : Byte)
  /-- DXYN -/
  | drwVxVyN (x y : Reg) (n : Fin 16)
  /-- EX9E -/
  | skpVx (x : Reg)
  /-- EXA1 -/
  | sknpVx (x : Reg)
  /-- FX07 -/
  | ldVxDt (x : Reg)
  /-- FX0A -/
  | ldVxK (x : Reg)
  /-- FX15 -/
  | ldDtVx (x : Reg)
  /-- FX18 -/
  | ldStVx (x : Reg)
  /-- FX1E -/
  | addIVx (x : Reg)
  /-- FX29 -/
  | ldFVx (x : Reg)
  /-- FX33 -/
  | ldBVx (x : Reg)
  /-- FX55 -/
  | ldMemVx (x : Reg)
  /-- FX65 -/
  | ldVxMem (x : Reg)
  deriving DecidableEq, Repr

end Sys2Proof
end

