-- ==== Sys2Proof/WellFormed.lean ====
section
/-! DEFINITION. The checks on what comes from outside. An instruction's operands carry their ranges in their types (a
register is a `Fin 16`, KK a `BitVec 8`, NNN a `BitVec 12`), so an operand out of range cannot be written and every term of
`Instr` is an instruction of the machine. Two checks are left: which terms an assembler line gives, and which ROMs a reset
accepts. -/

namespace Sys2Proof

/-- The instruction is the one an assembler line gives: `SHR Vx` and `SHL Vx` assemble with Y = 0 (R80). Every other value
of Y is an instruction of the machine too (R76), so the machine never asks this. -/
def Instr.assembled : Instr → Bool
  | .shrVx _ y => y == 0
  | .shlVx _ y => y == 0
  | .cls | .ret | .jp _ | .call _ | .seVxKk _ _ | .sneVxKk _ _ | .seVxVy _ _ | .ldVxKk _ _ | .addVxKk _ _
  | .ldVxVy _ _ | .orVxVy _ _ | .andVxVy _ _ | .xorVxVy _ _ | .addVxVy _ _ | .subVxVy _ _ | .subnVxVy _ _
  | .sneVxVy _ _ | .ldINnn _ | .jpV0Nnn _ | .rndVxKk _ _ | .drwVxVyN _ _ _ | .skpVx _ | .sknpVx _ | .ldVxDt _
  | .ldVxK _ | .ldDtVx _ | .ldStVx _ | .addIVx _ | .ldFVx _ | .ldBVx _ | .ldMemVx _ | .ldVxMem _ => true

/-- A ROM that `Reset` accepts: at most 3584 bytes, the empty one included (R177, R201). -/
def romFits (rom : List Byte) : Bool := rom.length ≤ Config.maxRom

end Sys2Proof
end

