-- ==== Sys2Proof/Machine/Ops.lean ====
section
/-! DEFINITION. The named operations that the meanings share: registers, the ways an instruction ends, the return stack,
raising a fatal error, and the reset that is the only way on from one. -/

namespace Sys2Proof.Machine

/-- Reads a general register (R11, R21). -/
def State.getV (s : State) (x : Reg) : Byte := s.v[x.val]

/-- Writes a general register; none of the sixteen is hard-wired (R21). -/
def State.setV (s : State) (x : Reg) (b : Byte) : State := { s with v := s.v.set x.val b }

/-- Writes all sixteen registers (R145). -/
def State.setRegs (s : State) (v : Vector Byte 16) : State := { s with v := v }

/-- Writes the index register; it may hold a value that is no address (R25). -/
def State.setI (s : State) (w : Word) : State := { s with i := w }

/-- Writes the delay timer (R29). -/
def State.setDt (s : State) (b : Byte) : State := { s with dt := b }

/-- Writes the sound timer (R29). -/
def State.setSt (s : State) (b : Byte) : State := { s with st := b }

/-- Writes `wait` (R31). -/
def State.setWait (s : State) (w : Option Reg) : State := { s with wait := w }

/-- Writes one key of the latch (R30). -/
def State.setKey (s : State) (k : Key) (down : Bool) : State := { s with keys := s.keys.set k.val down }

/-- Writes the display buffer (R32). -/
def State.setDisp (s : State) (d : Display) : State := { s with disp := d }

/-- Writes the memory (R50). -/
def State.setMem (s : State) (m : Memory) : State := { s with mem := m }

/-- Sets the fault latch (R35). -/
def State.setFault (s : State) (r : FaultRecord) : State := { s with fault := some r }

/-- The end of an instruction: pc takes its next value and one more instruction has completed (R93, R96). -/
def State.complete (s : State) (target : Word) : State := { s with pc := target, cycles := s.cycles + 1 }

/-- The end of an instruction that falls through: pc + 2 (R26, R93). -/
def State.fallThrough (s : State) : State := s.complete (s.pc + 2)

/-- The end of a skip: pc + 4 when the condition holds, pc + 2 when not (R110). -/
def State.skipIf (s : State) (c : Bool) : State := s.complete (if c then s.pc + 4 else s.pc + 2)

/-- Pushes a return address; none when sp = 16 (R28, R172). -/
def State.push (s : State) (w : Word) : Option State :=
  if h : s.sp.val < 16 then
    some { s with stack := s.stack.set s.sp.val w h, sp := ⟨s.sp.val + 1, by omega⟩ }
  else none

/-- Pops a return address; none when sp = 0. The entry stays where it is (R28, R100, R173, D4). -/
def State.pop (s : State) : Option (Word × State) :=
  if h : 0 < s.sp.val then
    some (s.stack[s.sp.val - 1]'(by omega), { s with sp := ⟨s.sp.val - 1, by omega⟩ })
  else none

/-- TAKING A FATAL ERROR: nothing changes but the latch, which records the cause, the pc of the instruction and the fetched
word; no control is transferred, no mode switched and nothing saved elsewhere (spec/60_exceptions.md R175, R189, D12; log 1).
What the latch then stops is `Event`'s business (R176). -/
def raise (cause : Cause) (opcode : Option Word) (s : State) : Out :=
  .next (s.setFault { cause := cause, atPc := s.pc, opcode := opcode })

/-- THE WAY ON from a fatal error, and the start of every session: `Reset(rom)`. Nothing of the old session survives
(R190, R200); a ROM that is too long creates no session (R177). The model's own fields go on: the schedule is the
surroundings', the draws must stay fresh, and the font is the machine's parameter (log 25). -/
def resetSession (rom : List Byte) (s : State) : Out :=
  if romFits rom then
    .next { State.reset with mem := Memory.fresh s.font rom, draws := s.draws, schedule := s.schedule, font := s.font }
  else .fault (.noSession (.romTooLarge rom.length))

end Sys2Proof.Machine
end

