-- ==== Sys2Proof/Machine/Flags.lean ====
section
/-! DEFINITION. The flag computations (spec/10_state.md R24, spec/43_alu.md R132). The one flag is VF, and as a flag it only
ever receives 0 or 1. -/

namespace Sys2Proof.Machine

/-- A flag's value: 1 or 0. -/
def flagByte (c : Bool) : Byte := if c then 1 else 0

/-- 8XY4: 1 if the sum of the naturals is above 255 (R126). -/
def carryFlag (a b : Byte) : Byte := flagByte (255 < a.toNat + b.toNat)

/-- 8XY5 and 8XY7: 1 if the minuend is strictly greater, so 0 when they are equal (R127, R129, C6). -/
def greaterFlag (a b : Byte) : Byte := flagByte (b.toNat < a.toNat)

/-- 8XY6: the bit shifted out, bit 0 (R128). -/
def lowBitFlag (a : Byte) : Byte := flagByte (a.getLsbD 0)

/-- 8XYE: the bit shifted out, bit 7 (R130). -/
def highBitFlag (a : Byte) : Byte := flagByte (a.getLsbD 7)

/-- DXYN: 1 if the draw turned a lit pixel off, else 0 (R151; the "else 0" is D6, log 9). -/
def collisionFlag (c : Bool) : Byte := flagByte c

/-- The writes of a flag-writing opcode, in the table's order: VF first, the result last, so with X = F the result stays
(spec/40_cycle_driver.md R95, D5; log 8). -/
def State.writeFlagged (s : State) (x : Reg) (flag result : Byte) : State := (s.setV VF flag).setV x result

end Sys2Proof.Machine
end

