-- ==== Sys2Proof/Machine/Operands.lean ====
section
/-! DEFINITION. The operand forms of the instructions (spec/30_encoding.md R74): registers, immediates, addresses, runs of
registers and of memory bytes. Every form reads the state before the instruction has written anything
(spec/40_cycle_driver.md R95): a meaning reads all its operands from the state it is given. -/

namespace Sys2Proof.Machine

/-- NNN as an address: zero-extended, neither scaled nor shifted (R74). -/
def addressOf (nnn : BitVec 12) : Word := nnn.setWidth 16

/-- BNNN's target, V0 + NNN as a natural number; at most 0x10FE, not reduced to 12 bits (R103, D29). -/
def offsetTarget (v0 : Byte) (nnn : BitVec 12) : Word := BitVec.ofNat 16 (v0.toNat + nnn.toNat)

/-- I + Vx modulo 0x10000, Vx zero-extended (R141). -/
def indexPlus (i : Word) (vx : Byte) : Word := i + vx.setWidth 16

/-- The address of a glyph, 5 * Vx, Vx not masked (R142, D30). -/
def glyphAddress (vx : Byte) : Word := BitVec.ofNat 16 (5 * vx.toNat)

/-- The address register as a memory address: a natural number, so that a sum with an offset does not wrap (R55, D27). -/
def State.base (s : State) : Nat := s.i.toNat

/-- The hundreds, tens and ones of a byte, one decimal digit a byte (R143). -/
def decimalDigits (vx : Byte) : List Byte :=
  [BitVec.ofNat 8 (vx.toNat / 100), BitVec.ofNat 8 (vx.toNat / 10 % 10), BitVec.ofNat 8 (vx.toNat % 10)]

/-- X as a count: the number of registers V0 to VX (R144, R145). -/
def countUpTo (x : Reg) : Nat := x.val + 1

/-- The registers V0 to VX in ascending order (R144). -/
def State.regsUpTo (s : State) (x : Reg) : List Byte := s.v.toList.take (countUpTo x)

/-- The registers with the first ones replaced by a list of bytes, V0 by the first (R145). -/
def withFirstRegs (v : Vector Byte 16) (bs : List Byte) : Vector Byte 16 :=
  Vector.ofFn fun r : Reg => bs.getD r.val v[r.val]

/-- A register's value as a key index; none when it is above 15 (R160, R178, D11). -/
def keyIndex (vx : Byte) : Option Key := if h : vx.toNat < 16 then some ⟨vx.toNat, h⟩ else none

/-- The latched state of a key (R30). -/
def State.keyDown (s : State) (k : Key) : Bool := s.keys[k.val]

end Sys2Proof.Machine
end

