-- ==== Sys2Proof/Machine/Alu.lean ====
section
/-! DEFINITION. 6XKK, 7XKK, 8XY0 to 8XY7, 8XYE, CXKK (spec/43_alu.md). Arithmetic on bytes wraps modulo 256 (R132). -/

namespace Sys2Proof.Machine

/-- 6XKK (R120). -/
def execLdVxKk (x : Reg) (kk : Byte) (s : State) : Out := .next (s.setV x kk).fallThrough

/-- 7XKK (R121): the carry is discarded. -/
def execAddVxKk (x : Reg) (kk : Byte) (s : State) : Out := .next (s.setV x (s.getV x + kk)).fallThrough

/-- 8XY0 (R122). -/
def execLdVxVy (x y : Reg) (s : State) : Out := .next (s.setV x (s.getV y)).fallThrough

/-- 8XY1 (R123): no flag. -/
def execOrVxVy (x y : Reg) (s : State) : Out := .next (s.setV x (s.getV x ||| s.getV y)).fallThrough

/-- 8XY2 (R124): no flag. -/
def execAndVxVy (x y : Reg) (s : State) : Out := .next (s.setV x (s.getV x &&& s.getV y)).fallThrough

/-- 8XY3 (R125): no flag. -/
def execXorVxVy (x y : Reg) (s : State) : Out := .next (s.setV x (s.getV x ^^^ s.getV y)).fallThrough

/-- 8XY4 (R126). -/
def execAddVxVy (x y : Reg) (s : State) : Out :=
  .next (s.writeFlagged x (carryFlag (s.getV x) (s.getV y)) (s.getV x + s.getV y)).fallThrough

/-- 8XY5 (R127). -/
def execSubVxVy (x y : Reg) (s : State) : Out :=
  .next (s.writeFlagged x (greaterFlag (s.getV x) (s.getV y)) (s.getV x - s.getV y)).fallThrough

/-- 8XY6 (R128): the operand is Vx; the Y field is ignored (R76). -/
def execShrVx (x _y : Reg) (s : State) : Out :=
  .next (s.writeFlagged x (lowBitFlag (s.getV x)) (s.getV x >>> 1)).fallThrough

/-- 8XY7 (R129). -/
def execSubnVxVy (x y : Reg) (s : State) : Out :=
  .next (s.writeFlagged x (greaterFlag (s.getV y) (s.getV x)) (s.getV y - s.getV x)).fallThrough

/-- 8XYE (R130): the operand is Vx; the Y field is ignored (R76). -/
def execShlVx (x _y : Reg) (s : State) : Out :=
  .next (s.writeFlagged x (highBitFlag (s.getV x)) (s.getV x <<< 1)).fallThrough

/-- The byte of this draw, and the state with the draw taken (R131; a free value, log 3). -/
def State.draw (s : State) : Byte × State := (Config.randomByte s.draws, { s with draws := s.draws + 1 })

/-- CXKK (R131). -/
def execRndVxKk (x : Reg) (kk : Byte) (s : State) : Out := .next (s.draw.2.setV x (s.draw.1 &&& kk)).fallThrough

end Sys2Proof.Machine
end

