-- ==== Sys2Proof/Decode.lean ====
section
/-! DEFINITION. The decoder and the encoder (spec/30_encoding.md R70 to R82). Fetch joins two bytes, the one at the lower
address the more significant (spec/20_memory.md R52); decoding is total on every word and refuses a word by name. -/

namespace Sys2Proof

/-- Why no instruction is read. -/
inductive DecodeError where
  /-- The word selects no row of the opcode table (R77). -/
  | unknownOpcode (op : Word)
  /-- There are fewer than the two bytes of an instruction (R70). -/
  | truncated
  deriving DecidableEq, Repr

/-- The opcode of two bytes, the first the one at the lower address (R52). -/
def wordOfBytes (hi lo : Byte) : Word := BitVec.ofNat 16 (hi.toNat * 256 + lo.toNat)

/-- The byte at the lower address: bits 15 to 8 (R52). -/
def highByte (op : Word) : Byte := op.extractLsb' 8 8

/-- The byte at the higher address: bits 7 to 0 (R52). -/
def lowByte (op : Word) : Byte := op.extractLsb' 0 8

/-- Bits 15 to 12, the class (R72). -/
def fieldClass (op : Word) : Nat := (op.extractLsb' 12 4).toNat

/-- Bits 11 to 8, register X (R72). -/
def fieldX (op : Word) : Reg := (op.extractLsb' 8 4).toFin

/-- Bits 7 to 4, register Y (R72). -/
def fieldY (op : Word) : Reg := (op.extractLsb' 4 4).toFin

/-- Bits 3 to 0, N (R72). -/
def fieldN (op : Word) : Fin 16 := (op.extractLsb' 0 4).toFin

/-- Bits 7 to 0, KK (R72). -/
def fieldKK (op : Word) : Byte := op.extractLsb' 0 8

/-- Bits 11 to 0, NNN (R72). -/
def fieldNNN (op : Word) : BitVec 12 := op.extractLsb' 0 12

/-- Class 0 has two words (R75 rows 1 and 2, R78). -/
def decodeClass0 (op : Word) : Except DecodeError Instr :=
  if op = 0x00E0#16 then .ok .cls
  else if op = 0x00EE#16 then .ok .ret
  else .error (.unknownOpcode op)

/-- Class 8, by its last nibble (R75 rows 10 to 18). -/
def decodeClass8 (op : Word) : Except DecodeError Instr :=
  match (fieldN op).val with
  | 0x0 => .ok (.ldVxVy (fieldX op) (fieldY op))
  | 0x1 => .ok (.orVxVy (fieldX op) (fieldY op))
  | 0x2 => .ok (.andVxVy (fieldX op) (fieldY op))
  | 0x3 => .ok (.xorVxVy (fieldX op) (fieldY op))
  | 0x4 => .ok (.addVxVy (fieldX op) (fieldY op))
  | 0x5 => .ok (.subVxVy (fieldX op) (fieldY op))
  | 0x6 => .ok (.shrVx (fieldX op) (fieldY op))
  | 0x7 => .ok (.subnVxVy (fieldX op) (fieldY op))
  | 0xE => .ok (.shlVx (fieldX op) (fieldY op))
  | _ => .error (.unknownOpcode op)

/-- Class E, by its low byte (R75 rows 24 and 25). -/
def decodeClassE (op : Word) : Except DecodeError Instr :=
  match (fieldKK op).toNat with
  | 0x9E => .ok (.skpVx (fieldX op))
  | 0xA1 => .ok (.sknpVx (fieldX op))
  | _ => .error (.unknownOpcode op)

/-- Class F, by its low byte (R75 rows 26 to 34). -/
def decodeClassF (op : Word) : Except DecodeError Instr :=
  match (fieldKK op).toNat with
  | 0x07 => .ok (.ldVxDt (fieldX op))
  | 0x0A => .ok (.ldVxK (fieldX op))
  | 0x15 => .ok (.ldDtVx (fieldX op))
  | 0x18 => .ok (.ldStVx (fieldX op))
  | 0x1E => .ok (.addIVx (fieldX op))
  | 0x29 => .ok (.ldFVx (fieldX op))
  | 0x33 => .ok (.ldBVx (fieldX op))
  | 0x55 => .ok (.ldMemVx (fieldX op))
  | 0x65 => .ok (.ldVxMem (fieldX op))
  | _ => .error (.unknownOpcode op)

/-- The instruction of a word (the decoding procedure of R82). -/
def decodeWord (op : Word) : Except DecodeError Instr :=
  match fieldClass op with
  | 0x0 => decodeClass0 op
  | 0x1 => .ok (.jp (fieldNNN op))
  | 0x2 => .ok (.call (fieldNNN op))
  | 0x3 => .ok (.seVxKk (fieldX op) (fieldKK op))
  | 0x4 => .ok (.sneVxKk (fieldX op) (fieldKK op))
  | 0x5 => if fieldN op = 0 then .ok (.seVxVy (fieldX op) (fieldY op)) else .error (.unknownOpcode op)
  | 0x6 => .ok (.ldVxKk (fieldX op) (fieldKK op))
  | 0x7 => .ok (.addVxKk (fieldX op) (fieldKK op))
  | 0x8 => decodeClass8 op
  | 0x9 => if fieldN op = 0 then .ok (.sneVxVy (fieldX op) (fieldY op)) else .error (.unknownOpcode op)
  | 0xA => .ok (.ldINnn (fieldNNN op))
  | 0xB => .ok (.jpV0Nnn (fieldNNN op))
  | 0xC => .ok (.rndVxKk (fieldX op) (fieldKK op))
  | 0xD => .ok (.drwVxVyN (fieldX op) (fieldY op) (fieldN op))
  | 0xE => decodeClassE op
  | 0xF => decodeClassF op
  | _ => .error (.unknownOpcode op)

/-- Reads one instruction from the front of a list of bytes and answers it with the bytes after it (R70: always two). -/
def decodeBytes : List Byte → Except DecodeError (Instr × List Byte)
  | hi :: lo :: rest =>
    match decodeWord (wordOfBytes hi lo) with
    | .ok i => .ok (i, rest)
    | .error e => .error e
  | _ => .error .truncated

/-- The two bytes of a word as the hardware stores them, the more significant at the lower address (R52). -/
def bytesOfWord (op : Word) : List Byte := [highByte op, lowByte op]

/-- The instruction the decoder reads from a word numbered as spec/opcode_table.json numbers it: one 16-bit word, bit 0 its
least significant. Bits from `nbits` on are 0. -/
def decodeTableWord (nbits w : Nat) : Option Instr :=
  match decodeBytes (bytesOfWord (BitVec.ofNat 16 (w % 2 ^ nbits))) with
  | .ok (i, _) => some i
  | .error _ => none

/-- The match value of format NNN with its field filled in (R73, R80). -/
def packNNN (base : Nat) (nnn : BitVec 12) : Word := BitVec.ofNat 16 (base + nnn.toNat)

/-- The match value of format XKK with its fields filled in. -/
def packXKK (base : Nat) (x : Reg) (kk : Byte) : Word := BitVec.ofNat 16 (base + x.val * 256 + kk.toNat)

/-- The match value of formats XY and XYN with its fields filled in; `n` is the last nibble. -/
def packXYN (base : Nat) (x y n : Fin 16) : Word := BitVec.ofNat 16 (base + x.val * 256 + y.val * 16 + n.val)

/-- The match value of format X with its field filled in. -/
def packX (base : Nat) (x : Reg) : Word := BitVec.ofNat 16 (base + x.val * 256)

/-- The word of an instruction: the match value of its row with the fields filled in (R75, R80). -/
def encode : Instr → Word
  | .cls => 0x00E0#16
  | .ret => 0x00EE#16
  | .jp nnn => packNNN 0x1000 nnn
  | .call nnn => packNNN 0x2000 nnn
  | .seVxKk x kk => packXKK 0x3000 x kk
  | .sneVxKk x kk => packXKK 0x4000 x kk
  | .seVxVy x y => packXYN 0x5000 x y 0x0
  | .ldVxKk x kk => packXKK 0x6000 x kk
  | .addVxKk x kk => packXKK 0x7000 x kk
  | .ldVxVy x y => packXYN 0x8000 x y 0x0
  | .orVxVy x y => packXYN 0x8000 x y 0x1
  | .andVxVy x y => packXYN 0x8000 x y 0x2
  | .xorVxVy x y => packXYN 0x8000 x y 0x3
  | .addVxVy x y => packXYN 0x8000 x y 0x4
  | .subVxVy x y => packXYN 0x8000 x y 0x5
  | .shrVx x y => packXYN 0x8000 x y 0x6
  | .subnVxVy x y => packXYN 0x8000 x y 0x7
  | .shlVx x y => packXYN 0x8000 x y 0xE
  | .sneVxVy x y => packXYN 0x9000 x y 0x0
  | .ldINnn nnn => packNNN 0xA000 nnn
  | .jpV0Nnn nnn => packNNN 0xB000 nnn
  | .rndVxKk x kk => packXKK 0xC000 x kk
  | .drwVxVyN x y n => packXYN 0xD000 x y n
  | .skpVx x => packX 0xE09E x
  | .sknpVx x => packX 0xE0A1 x
  | .ldVxDt x => packX 0xF007 x
  | .ldVxK x => packX 0xF00A x
  | .ldDtVx x => packX 0xF015 x
  | .ldStVx x => packX 0xF018 x
  | .addIVx x => packX 0xF01E x
  | .ldFVx x => packX 0xF029 x
  | .ldBVx x => packX 0xF033 x
  | .ldMemVx x => packX 0xF055 x
  | .ldVxMem x => packX 0xF065 x

/-- The bytes of an instruction as they lie in memory (R52). -/
def encodeBytes (i : Instr) : List Byte := bytesOfWord (encode i)

/-- One row of the opcode map: a word selects it when `word AND mask = pattern` (R75). -/
structure OpcodeRow where
  mask : Word
  pattern : Word
  deriving DecidableEq, Repr

/-- The 34 rows of R75, in the table's order. -/
def opcodeRows : List OpcodeRow :=
  [⟨0xFFFF, 0x00E0⟩, ⟨0xFFFF, 0x00EE⟩, ⟨0xF000, 0x1000⟩, ⟨0xF000, 0x2000⟩, ⟨0xF000, 0x3000⟩, ⟨0xF000, 0x4000⟩,
    ⟨0xF00F, 0x5000⟩, ⟨0xF000, 0x6000⟩, ⟨0xF000, 0x7000⟩] ++
  [⟨0xF00F, 0x8000⟩, ⟨0xF00F, 0x8001⟩, ⟨0xF00F, 0x8002⟩, ⟨0xF00F, 0x8003⟩, ⟨0xF00F, 0x8004⟩, ⟨0xF00F, 0x8005⟩,
    ⟨0xF00F, 0x8006⟩, ⟨0xF00F, 0x8007⟩, ⟨0xF00F, 0x800E⟩] ++
  [⟨0xF00F, 0x9000⟩, ⟨0xF000, 0xA000⟩, ⟨0xF000, 0xB000⟩, ⟨0xF000, 0xC000⟩, ⟨0xF000, 0xD000⟩, ⟨0xF0FF, 0xE09E⟩,
    ⟨0xF0FF, 0xE0A1⟩] ++
  [⟨0xF0FF, 0xF007⟩, ⟨0xF0FF, 0xF00A⟩, ⟨0xF0FF, 0xF015⟩, ⟨0xF0FF, 0xF018⟩, ⟨0xF0FF, 0xF01E⟩, ⟨0xF0FF, 0xF029⟩,
    ⟨0xF0FF, 0xF033⟩, ⟨0xF0FF, 0xF055⟩, ⟨0xF0FF, 0xF065⟩]

/-- The word selects the row (R75). -/
def OpcodeRow.selects (r : OpcodeRow) (op : Word) : Bool := op &&& r.mask == r.pattern

/-- The row of an instruction, by its place in the table (R75). -/
def rowOf : Instr → OpcodeRow
  | .cls => ⟨0xFFFF, 0x00E0⟩
  | .ret => ⟨0xFFFF, 0x00EE⟩
  | .jp _ => ⟨0xF000, 0x1000⟩
  | .call _ => ⟨0xF000, 0x2000⟩
  | .seVxKk _ _ => ⟨0xF000, 0x3000⟩
  | .sneVxKk _ _ => ⟨0xF000, 0x4000⟩
  | .seVxVy _ _ => ⟨0xF00F, 0x5000⟩
  | .ldVxKk _ _ => ⟨0xF000, 0x6000⟩
  | .addVxKk _ _ => ⟨0xF000, 0x7000⟩
  | .ldVxVy _ _ => ⟨0xF00F, 0x8000⟩
  | .orVxVy _ _ => ⟨0xF00F, 0x8001⟩
  | .andVxVy _ _ => ⟨0xF00F, 0x8002⟩
  | .xorVxVy _ _ => ⟨0xF00F, 0x8003⟩
  | .addVxVy _ _ => ⟨0xF00F, 0x8004⟩
  | .subVxVy _ _ => ⟨0xF00F, 0x8005⟩
  | .shrVx _ _ => ⟨0xF00F, 0x8006⟩
  | .subnVxVy _ _ => ⟨0xF00F, 0x8007⟩
  | .shlVx _ _ => ⟨0xF00F, 0x800E⟩
  | .sneVxVy _ _ => ⟨0xF00F, 0x9000⟩
  | .ldINnn _ => ⟨0xF000, 0xA000⟩
  | .jpV0Nnn _ => ⟨0xF000, 0xB000⟩
  | .rndVxKk _ _ => ⟨0xF000, 0xC000⟩
  | .drwVxVyN _ _ _ => ⟨0xF000, 0xD000⟩
  | .skpVx _ => ⟨0xF0FF, 0xE09E⟩
  | .sknpVx _ => ⟨0xF0FF, 0xE0A1⟩
  | .ldVxDt _ => ⟨0xF0FF, 0xF007⟩
  | .ldVxK _ => ⟨0xF0FF, 0xF00A⟩
  | .ldDtVx _ => ⟨0xF0FF, 0xF015⟩
  | .ldStVx _ => ⟨0xF0FF, 0xF018⟩
  | .addIVx _ => ⟨0xF0FF, 0xF01E⟩
  | .ldFVx _ => ⟨0xF0FF, 0xF029⟩
  | .ldBVx _ => ⟨0xF0FF, 0xF033⟩
  | .ldMemVx _ => ⟨0xF0FF, 0xF055⟩
  | .ldVxMem _ => ⟨0xF0FF, 0xF065⟩

end Sys2Proof
end

