-- ==== Sys2Proof/Machine/ControlFlow.lean ====
section
/-! DEFINITION. 00EE, 1NNN, 2NNN, BNNN (spec/41_control_flow.md). -/

namespace Sys2Proof.Machine

/-- 00EE (R100): the popped value goes into pc as it is. -/
def execRet (s : State) : Out :=
  match s.pop with
  | some (target, t) => .next (t.complete target)
  | none => raise .stackUnderflow (some (encode .ret)) s

/-- 1NNN (R101). -/
def execJp (nnn : BitVec 12) (s : State) : Out := .next (s.complete (addressOf nnn))

/-- 2NNN (R102): the address saved is that of the instruction after the call, pc + 2 (D3, log 13). -/
def execCall (nnn : BitVec 12) (s : State) : Out :=
  match s.push (s.pc + 2) with
  | some t => .next (t.complete (addressOf nnn))
  | none => raise .stackOverflow (some (encode (.call nnn))) s

/-- BNNN (R103). -/
def execJpV0Nnn (nnn : BitVec 12) (s : State) : Out := .next (s.complete (offsetTarget (s.getV V0) nnn))

end Sys2Proof.Machine
end

