-- ==== Sys2Proof/Machine/Display.lean ====
section
/-! DEFINITION. 00E0 and DXYN (spec/45_display.md), the only two instructions that write the display buffer. -/

namespace Sys2Proof.Machine

/-- One pixel (R32). -/
def Display.pixel (d : Display) (row : Fin 32) (col : Fin 64) : Bool := d[row.val].getLsbD col.val

/-- Inverts one pixel (R151 (4)). -/
def Display.invert (d : Display) (row : Fin 32) (col : Fin 64) : Display :=
  d.set row.val (d[row.val] ^^^ BitVec.twoPow 64 col.val)

/-- The display with no pixel lit (R150). -/
def Display.clear : Display := Vector.replicate 32 0

/-- The row of a vertical coordinate: it wraps at 32 (R151 (2), D8; log 11). -/
def wrapRow (n : Nat) : Fin 32 := ⟨n % 32, Nat.mod_lt _ (by decide)⟩

/-- The column of a horizontal coordinate: it wraps at 64 (R151 (2), D8; log 11). -/
def wrapCol (n : Nat) : Fin 64 := ⟨n % 64, Nat.mod_lt _ (by decide)⟩

/-- A display being drawn on, and whether a lit pixel has been turned off. -/
structure Canvas where
  disp : Display
  collision : Bool
  deriving DecidableEq, Repr

/-- Inverts one pixel; turning a lit one off is a collision (R151 (4), (5)). -/
def Canvas.invert (cv : Canvas) (row : Fin 32) (col : Fin 64) : Canvas where
  disp := cv.disp.invert row col
  collision := cv.collision || cv.disp.pixel row col

/-- The bit of a sprite byte at a column offset 0 to 7: bit 7 is the leftmost pixel (R151 (3), D7; log 10). -/
def spriteBit (b : Byte) (c : Nat) : Bool := b.getLsbD (7 - c)

/-- Draws one sprite row: a 1 bit inverts its pixel, a 0 bit leaves it alone (R151). -/
def Canvas.drawRow (cv : Canvas) (b : Byte) (x y : Nat) : Canvas :=
  (List.range 8).foldl (fun cv c => if spriteBit b c then cv.invert (wrapRow y) (wrapCol (x + c)) else cv) cv

/-- Draws the rows of a sprite from the vertical coordinate `y` downwards (R151). -/
def Canvas.drawRows (cv : Canvas) : List Byte → Nat → Nat → Canvas
  | [], _, _ => cv
  | b :: bs, x, y => Canvas.drawRows (cv.drawRow b x y) bs x (y + 1)

/-- 00E0 (R150): VF is not changed. -/
def execCls (s : State) : Out := .next (s.setDisp Display.clear).fallThrough

/-- DXYN (R151): the coordinates are read before VF is written (R95); no row means no memory access, no pixel and VF = 0. -/
def execDrwVxVyN (x y : Reg) (n : Fin 16) (s : State) : Out :=
  match badAddress s.base n.val with
  | some a => raise (.outOfBoundsAccess a) (some (encode (.drwVxVyN x y n))) s
  | none =>
    let cv := Canvas.drawRows ⟨s.disp, false⟩ (s.mem.load s.base n.val) (s.getV x).toNat (s.getV y).toNat
    .next ((s.setDisp cv.disp).setV VF (collisionFlag cv.collision)).fallThrough

end Sys2Proof.Machine
end

