-- ==== Sys2Proof/Machine/IndexMemory.lean ====
section
/-! DEFINITION. ANNN, FX1E, FX29, FX33, FX55, FX65 (spec/44_index_memory.md). No access changes I. -/

namespace Sys2Proof.Machine

/-- ANNN (R140). -/
def execLdINnn (nnn : BitVec 12) (s : State) : Out := .next (s.setI (addressOf nnn)).fallThrough

/-- FX1E (R141): no flag. -/
def execAddIVx (x : Reg) (s : State) : Out := .next (s.setI (indexPlus s.i (s.getV x))).fallThrough

/-- FX29 (R142): no memory access. -/
def execLdFVx (x : Reg) (s : State) : Out := .next (s.setI (glyphAddress (s.getV x))).fallThrough

/-- Stores bytes from I on, or raises before any is written when one of their addresses is 4096 or more (R56, R171, D25). -/
def storeAtIndex (opcode : Word) (bs : List Byte) (s : State) : Out :=
  match badAddress s.base bs.length with
  | some a => raise (.outOfBoundsAccess a) (some opcode) s
  | none => .next (s.setMem (s.mem.store s.base bs)).fallThrough

/-- FX33 (R143). -/
def execLdBVx (x : Reg) (s : State) : Out := storeAtIndex (encode (.ldBVx x)) (decimalDigits (s.getV x)) s

/-- FX55 (R144). -/
def execLdMemVx (x : Reg) (s : State) : Out := storeAtIndex (encode (.ldMemVx x)) (s.regsUpTo x) s

/-- FX65 (R145). -/
def execLdVxMem (x : Reg) (s : State) : Out :=
  match badAddress s.base (countUpTo x) with
  | some a => raise (.outOfBoundsAccess a) (some (encode (.ldVxMem x))) s
  | none => .next (s.setRegs (withFirstRegs s.v (s.mem.load s.base (countUpTo x)))).fallThrough

end Sys2Proof.Machine
end

