-- ==== Sys2Proof/Machine/InputTimers.lean ====
section
/-! DEFINITION. EX9E, EXA1, FX07, FX0A, FX15, FX18 (spec/46_input_timers.md). -/

namespace Sys2Proof.Machine

/-- EX9E (R160): a key index above 15 is fatal (D11, log 12). -/
def execSkpVx (x : Reg) (s : State) : Out :=
  match keyIndex (s.getV x) with
  | some k => .next (s.skipIf (s.keyDown k))
  | none => raise (.keyIndexOutOfRange (s.getV x)) (some (encode (.skpVx x))) s

/-- EXA1 (R161): a key index above 15 is fatal (D11, log 12). -/
def execSknpVx (x : Reg) (s : State) : Out :=
  match keyIndex (s.getV x) with
  | some k => .next (s.skipIf (!s.keyDown k))
  | none => raise (.keyIndexOutOfRange (s.getV x)) (some (encode (.sknpVx x))) s

/-- FX07 (R162): reading DT does not change it. -/
def execLdVxDt (x : Reg) (s : State) : Out := .next (s.setV x s.dt).fallThrough

/-- FX0A at its Cycle (R163): it sets `wait` and nothing else, pc and cycles included. It completes at the key press that
resolves it (`resolveWait`). -/
def execLdVxK (x : Reg) (s : State) : Out := .next (s.setWait (some x))

/-- FX15 (R164). -/
def execLdDtVx (x : Reg) (s : State) : Out := .next (s.setDt (s.getV x)).fallThrough

/-- FX18 (R165). -/
def execLdStVx (x : Reg) (s : State) : Out := .next (s.setSt (s.getV x)).fallThrough

end Sys2Proof.Machine
end

