-- ==== Sys2Proof/Machine/Skips.lean ====
section
/-! DEFINITION. 3XKK, 4XKK, 5XY0, 9XY0 (spec/42_skips.md). -/

namespace Sys2Proof.Machine

/-- 3XKK (R110). -/
def execSeVxKk (x : Reg) (kk : Byte) (s : State) : Out := .next (s.skipIf (s.getV x == kk))

/-- 4XKK (R111). -/
def execSneVxKk (x : Reg) (kk : Byte) (s : State) : Out := .next (s.skipIf (s.getV x != kk))

/-- 5XY0 (R112). -/
def execSeVxVy (x y : Reg) (s : State) : Out := .next (s.skipIf (s.getV x == s.getV y))

/-- 9XY0 (R113). -/
def execSneVxVy (x y : Reg) (s : State) : Out := .next (s.skipIf (s.getV x != s.getV y))

end Sys2Proof.Machine
end

