-- ==== Sys2Proof/Machine/Events.lean ====
section
/-! DEFINITION. The events from outside (spec/60_exceptions.md R180 to R186): Tick, KeyPress, KeyRelease, and the array form
of key delivery. In a terminated session none has an effect (R176). -/

namespace Sys2Proof.Machine

/-- One down-count of a timer: it stops at 0 and does not wrap (R180). -/
def countDown (t : Byte) : Byte := if t = 0 then 0 else t - 1

/-- Tick (R180): both timers count down, whatever `wait` is (R181, D16; log 15). -/
def tick (s : State) : State :=
  if s.fault.isSome then s else (s.setDt (countDown s.dt)).setSt (countDown s.st)

/-- The completion of a pending FX0A (R184): the key's number goes to the register, pc moves past the FX0A, one more
instruction has completed, and the wait ends. -/
def resolveWait (x : Reg) (k : Key) (s : State) : State :=
  ((s.setV x (BitVec.ofNat 8 k.val)).setWait none).fallThrough

/-- KeyPress(k) (R183, R184): it latches the key, and resolves a pending FX0A only on the edge from released to pressed. -/
def keyPress (k : Key) (s : State) : State :=
  if s.fault.isSome then s
  else
    match s.wait with
    | some x => if s.keyDown k then s.setKey k true else resolveWait x k (s.setKey k true)
    | none => s.setKey k true

/-- KeyRelease(k) (R185): it never resolves a wait. -/
def keyRelease (k : Key) (s : State) : State :=
  if s.fault.isSome then s else s.setKey k false

/-- The delivery of a whole key array: the single-key events in ascending order of the key (R186, D17; log 16). -/
def keyArrayEvents (new : Vector Bool 16) : List Event :=
  (List.finRange 16).map fun k => if new[k.val] then .keyPress k else .keyRelease k

end Sys2Proof.Machine
end

