-- ==== Sys2Proof/Machine/Cycle.lean ====
section
/-! DEFINITION. The Cycle event (spec/40_cycle_driver.md R91, R92, R97) and what each of the five events does (R90). -/

namespace Sys2Proof.Machine

/-- The word at an address of memory: the byte there is the more significant (R52). -/
def Memory.wordAt (m : Memory) (a : Nat) : Word := wordOfBytes (m.peek a) (m.peek (a + 1))

/-- Fetch (R92): the word at pc, or the offending address when pc is above 4094. Fetch does not change pc. -/
def fetch (s : State) : Except Nat Word :=
  if s.pc.toNat ≤ Config.lastFetch then .ok (s.mem.wordAt s.pc.toNat) else .error s.pc.toNat

/-- The instruction a fetched word stands for runs; a word that stands for none is fatal (R77, R91, R174). -/
def runWord (op : Word) (s : State) : Out :=
  match decodeWord op with
  | .ok i => exec i s
  | .error _ => raise (.unknownOpcode op) (some op) s

/-- Cycle (R91): nothing happens in a terminated session or while a key is awaited; otherwise one instruction is fetched,
decoded and executed, the checks in the order of R97. The timers are no part of it (R98). -/
def cycle (s : State) : Out :=
  if s.fault.isSome || s.wait.isSome then .next s
  else
    match fetch s with
    | .ok op => runWord op s
    | .error a => raise (.outOfBoundsAccess a) none s

/-- One event, an atomic step (R90). -/
def applyEvent (e : Event) (s : State) : Out :=
  match e with
  | .cycle => cycle s
  | .tick => .next (tick s)
  | .keyPress k => .next (keyPress k s)
  | .keyRelease k => .next (keyRelease k s)
  | .reset rom => resetSession rom s

/-- The event that comes next (R90; log 2). -/
def Schedule.first : Schedule → Event
  | .onlyCycles => .cycle
  | .free n => Config.surroundings n
  | .upcoming e _ => e

/-- The events after that one. -/
def Schedule.rest : Schedule → Schedule
  | .onlyCycles => .onlyCycles
  | .free n => .free (n + 1)
  | .upcoming _ others => others

/-- The schedule with events before it. -/
def Schedule.after (later : Schedule) (es : List Event) : Schedule := es.foldr .upcoming later

/-- The event that comes next. -/
def State.nextEvent (s : State) : Event := s.schedule.first

/-- The state with that event taken off the schedule. -/
def State.dropEvent (s : State) : State := { s with schedule := s.schedule.rest }

/-- The state with another schedule. -/
def State.setSchedule (s : State) (sch : Schedule) : State := { s with schedule := sch }

/-- Events one after the other (R90); it ends where one has no next state. -/
def applyEvents : List Event → State → Out
  | [], s => .next s
  | e :: es, s =>
    match applyEvent e s with
    | .next t => applyEvents es t
    | .fault r => .fault r
    | .refused r => .refused r

/-- Stores a word's two bytes where a fetch at the address reads them (R52). -/
def Memory.putWord (m : Memory) (a : Nat) (op : Word) : Memory := m.store a (bytesOfWord op)

/-- The address the next fetch reads: pc, or the entry point where pc is no address a fetch may start at. -/
def State.fetchAddress (s : State) : Word := if s.pc.toNat ≤ Config.lastFetch then s.pc else BitVec.ofNat 16 Config.romBase

/-- The state with a word at the address of the next fetch, and with everything out of the way that would keep the very next
step from fetching it: a latched fault, a pending FX0A, scheduled events (log 7). -/
def State.readyToFetch (s : State) (op : Word) : State :=
  { s with
    pc := s.fetchAddress
    mem := s.mem.putWord s.fetchAddress.toNat op
    fault := none
    wait := none
    schedule := .onlyCycles }

end Sys2Proof.Machine
end

