-- ==== Sys2Proof/Machine/Outputs.lean ====
section
/-! DEFINITION. The output signals (spec/10_state.md R38), each a function of the state, read between events
(spec/20_memory.md R66). -/

namespace Sys2Proof.Machine

/-- `display`: the 2048 pixels, row-major: the pixel at (row, col) is element row * 64 + col (R32, R38). -/
def displayOut (s : State) : List Bool :=
  (List.finRange 32).flatMap fun row => (List.finRange 64).map fun col => s.disp.pixel row col

/-- `sound_active`: the sound timer is not 0 (R38). -/
def soundActive (s : State) : Bool := 0 < s.st.toNat

/-- `awaiting`: an FX0A is pending (R38). -/
def awaitingOut (s : State) : Bool := s.wait.isSome

/-- `fault_out`: the fault latch (R38). -/
def faultOut (s : State) : Option FaultRecord := s.fault

/-- `cycles_out`: the diagnostic counter (R38). -/
def cyclesOut (s : State) : Nat := s.cycles

/-- The number of a cause (R170, D24); nothing in the machine reads it. -/
def causeCode : Cause → Nat
  | .outOfBoundsAccess _ => 1
  | .stackOverflow => 2
  | .stackUnderflow => 3
  | .unknownOpcode _ => 4
  | .romTooLarge _ => 5
  | .keyIndexOutOfRange _ => 6

end Sys2Proof.Machine
end

