-- ==== Sys2Proof/Machine/Step.lean ====
section
/-! DEFINITION. One step of the machine: the next event of the schedule (spec/40_cycle_driver.md R90; log 2). -/

namespace Sys2Proof.Machine

/-- One step: the next event happens to the state from which it has been taken. -/
def step (s : State) : Host.Outcome State Fault Refusal := applyEvent s.nextEvent s.dropEvent

/-- So many steps, one after another; they end where one has no next state. -/
def steps : Nat → State → Out
  | 0, s => .next s
  | k + 1, s =>
    match step s with
    | .next t => steps k t
    | .fault r => .fault r
    | .refused r => .refused r

/-- The state in which the very next step fetches and runs the instruction with these bits. -/
def State.withFetchWord (s : State) (nbits w : Nat) : State := s.readyToFetch (BitVec.ofNat 16 (w % 2 ^ nbits))

end Sys2Proof.Machine
end

