-- ==== Sys2Proof/Safety.lean ====
section
/-! DEFINITION. What counts as a safe run, in the terms claims use: the states in which instructions run, the end of a run,
the parts of a state that a frame speaks of, what each instruction may write, and the invariants of the machine. -/

namespace Sys2Proof.Machine

/-- The session has not been terminated and no key is awaited, so the next Cycle runs an instruction (R91). -/
def State.Running (s : State) : Prop := s.fault = none ∧ s.wait = none

/-- The next step is a Cycle that runs an instruction from a fetchable address (R91, R92). -/
def State.Fetches (s : State) : Prop :=
  s.Running ∧ s.nextEvent = .cycle ∧ s.pc.toNat ≤ Config.lastFetch

/-- The run has ended, in the sense R99 suggests: no fault, no wait, and a jump to itself at pc (D23). -/
def State.Ended (s : State) : Prop :=
  s.Running ∧ s.pc.toNat ≤ Config.lastFetch ∧ (s.mem.wordAt s.pc.toNat).toNat = 0x1000 + s.pc.toNat

/-- The parts of a state: what one write can change. -/
inductive Part where
  | reg (r : Reg)
  | index
  | pc
  | sp
  | entry (j : Fin 16)
  | delay
  | sound
  | key (k : Key)
  | wait
  | pixel (row : Fin 32) (col : Fin 64)
  | byte (a : Nat)
  | cycles
  | fault
  | draws
  | schedule
  | font
  deriving DecidableEq, Repr

/-- The part is the same in two states. -/
def Part.same (p : Part) (s t : State) : Prop :=
  match p with
  | .reg r => t.getV r = s.getV r
  | .index => t.i = s.i
  | .pc => t.pc = s.pc
  | .sp => t.sp = s.sp
  | .entry j => t.stack[j.val] = s.stack[j.val]
  | .delay => t.dt = s.dt
  | .sound => t.st = s.st
  | .key k => t.keyDown k = s.keyDown k
  | .wait => t.wait = s.wait
  | .pixel row col => t.disp.pixel row col = s.disp.pixel row col
  | .byte a => t.mem.peek a = s.mem.peek a
  | .cycles => t.cycles = s.cycles
  | .fault => t.fault = s.fault
  | .draws => t.draws = s.draws
  | .schedule => t.schedule = s.schedule
  | .font => t.font = s.font

/-- From `s` to `t` only the parts listed may change; every register, every flag, every byte of memory, every pixel and
everything else not listed is as before. -/
def OnlyChanges (parts : List Part) (s t : State) : Prop := ∀ p : Part, p ∉ parts → p.same s t

/-- The `n` bytes of memory from an address on. -/
def bytesFrom (a n : Nat) : List Part := (List.range n).map fun k => .byte (a + k)

/-- The registers V0 to VX. -/
def regsTo (x : Reg) : List Part := ((List.finRange 16).filter fun r => r.val ≤ x.val).map .reg

/-- Every pixel. -/
def allPixels : List Part := (List.finRange 32).flatMap fun row => (List.finRange 64).map fun col => .pixel row col

/-- What every instruction that completes writes: pc and the counter (R96). -/
def pcAndCycles : List Part := [.pc, .cycles]

/-- Some 1 bit of the sprite of `n` rows at I, drawn at (Vx, Vy), falls on the pixel (spec/45_display.md R151). -/
def spriteCovers (s : State) (x y : Reg) (n : Fin 16) (row : Fin 32) (col : Fin 64) : Bool :=
  (List.range n.val).any fun r => (List.range 8).any fun c =>
    row.val == ((s.getV y).toNat + r) % 32 && col.val == ((s.getV x).toNat + c) % 64 &&
      (s.mem.peek (s.base + r)).getLsbD (7 - c)

/-- The states agree in everything but the stack entries that are not in use (spec/10_state.md R28). -/
def SameButDeadEntries (s t : State) : Prop :=
  t = { s with stack := t.stack } ∧ ∀ j : Fin 16, j.val < s.sp.val → t.stack[j.val] = s.stack[j.val]

/-- The outcome with so many more cycles counted. -/
def addCycles (n : Nat) : Out → Out
  | .next t => .next { t with cycles := t.cycles + n }
  | .fault r => .fault r
  | .refused r => .refused r

/-- What an instruction that completes may write, beside pc and cycles: the table of spec/10_state.md R23 for the registers,
R22 and R24 for VF, R25 for I, R28 for the stack, R29 to R32 for the rest, R51 for memory. -/
def writesOf (i : Instr) (s : State) : List Part :=
  match i with
  | .cls => allPixels
  | .ret => [.sp]
  | .jp _ => []
  | .call _ => [.sp] ++ (if h : s.sp.val < 16 then [.entry ⟨s.sp.val, h⟩] else [])
  | .seVxKk _ _ => []
  | .sneVxKk _ _ => []
  | .seVxVy _ _ => []
  | .ldVxKk x _ => [.reg x]
  | .addVxKk x _ => [.reg x]
  | .ldVxVy x _ => [.reg x]
  | .orVxVy x _ => [.reg x]
  | .andVxVy x _ => [.reg x]
  | .xorVxVy x _ => [.reg x]
  | .addVxVy x _ => [.reg x, .reg VF]
  | .subVxVy x _ => [.reg x, .reg VF]
  | .shrVx x _ => [.reg x, .reg VF]
  | .subnVxVy x _ => [.reg x, .reg VF]
  | .shlVx x _ => [.reg x, .reg VF]
  | .sneVxVy _ _ => []
  | .ldINnn _ => [.index]
  | .jpV0Nnn _ => []
  | .rndVxKk x _ => [.reg x, .draws]
  | .drwVxVyN _ _ _ => .reg VF :: allPixels
  | .skpVx _ => []
  | .sknpVx _ => []
  | .ldVxDt x => [.reg x]
  | .ldVxK _ => [.wait]
  | .ldDtVx _ => [.delay]
  | .ldStVx _ => [.sound]
  | .addIVx _ => [.index]
  | .ldFVx _ => [.index]
  | .ldBVx _ => bytesFrom s.base 3
  | .ldMemVx x => bytesFrom s.base (x.val + 1)
  | .ldVxMem x => regsTo x

/-- The invariant of the machine (spec/10_state.md R42, with the memory's canonical form): every step keeps it. The bounds
on sp, on the registers and on `wait` are in the types. -/
structure State.Inv (s : State) : Prop where
  /-- Memory keeps its canonical form. -/
  memory : s.mem.wf = true
  /-- pc never passes 0x10FE. -/
  pcBound : s.pc.toNat ≤ 0x10FE
  /-- Every stack entry in use is a return address, 2 to 0x1000. -/
  entries : ∀ j : Fin 16, j.val < s.sp.val → 2 ≤ s.stack[j.val].toNat ∧ s.stack[j.val].toNat ≤ 0x1000
  /-- A pending FX0A was fetched, so pc is an address a fetch may start at. -/
  waiting : s.wait ≠ none → s.pc.toNat ≤ Config.lastFetch
  /-- The latch records the pc at which the session ended, and pc still points there. -/
  latched : ∀ r, s.fault = some r → r.atPc = s.pc

/-- While a key is awaited, pc still points at the FX0A that awaits it (spec/46_input_timers.md R163). -/
def State.WaitsAtItsInstruction (s : State) : Prop :=
  ∀ x, s.wait = some x → s.pc.toNat ≤ Config.lastFetch ∧ s.mem.wordAt s.pc.toNat = encode (.ldVxK x)

end Sys2Proof.Machine
end

