-- ==== Sys2Proof/Certificates/Slice0/Obligations.lean ====
section
/-! DEFINITION. The statements for the provers, from the rules of spec/, file by file. Where a clause rests on a decision of
the spec's own (D<n> of spec/92_eei_decisions.md) or of the model, its docstring names the decision and the log entry. -/

open Sys2Proof Sys2Proof.Machine

/-! Encoding (spec/30_encoding.md). -/

/-- Decoding the bytes of an instruction gives it back, with every operand at every value, and leaves the bytes after it. -/
def Obligations.DecodeEncodeEveryInstruction : Prop :=
  ∀ (i : Instr) (rest : List Byte), decodeBytes (encodeBytes i ++ rest) = .ok (i, rest)

/-- The other direction: a word that decodes is the encoding of what it decodes to, so no bit of it is lost. -/
def Obligations.EncodeDecodedWordIsTheWord : Prop :=
  ∀ (op : Word) (i : Instr), decodeWord op = .ok i → encode i = op

/-- R75: every word selects one row and decodes to an instruction of that row, or selects none and is refused by name; the 34
rows are pairwise disjoint. -/
def Obligations.DecodeFollowsTheOpcodeMap : Prop :=
  (∀ op : Word,
    (∃ i, decodeWord op = .ok i ∧ rowOf i ∈ opcodeRows ∧ (rowOf i).selects op = true) ∨
    (decodeWord op = .error (.unknownOpcode op) ∧ ∀ r ∈ opcodeRows, r.selects op = false)) ∧
  opcodeRows.length = 34 ∧
  opcodeRows.Pairwise fun a b => ∀ op : Word, ¬ (a.selects op = true ∧ b.selects op = true)

/-- R77 (D20, log 18): the unknown words are those of the table of classes. -/
def Obligations.UnknownWordsAreThoseListed : Prop :=
  ∀ op : Word, decodeWord op = .error (.unknownOpcode op) ↔
    (op.toNat / 4096 = 0x0 ∧ op.toNat ≠ 0x00E0 ∧ op.toNat ≠ 0x00EE) ∨
    (op.toNat / 4096 = 0x5 ∧ op.toNat % 16 ≠ 0) ∨
    (op.toNat / 4096 = 0x8 ∧ op.toNat % 16 ∈ [0x8, 0x9, 0xA, 0xB, 0xC, 0xD, 0xF]) ∨
    (op.toNat / 4096 = 0x9 ∧ op.toNat % 16 ≠ 0) ∨
    (op.toNat / 4096 = 0xE ∧ op.toNat % 256 ∉ [0x9E, 0xA1]) ∨
    (op.toNat / 4096 = 0xF ∧ op.toNat % 256 ∉ [0x07, 0x0A, 0x15, 0x18, 0x1E, 0x29, 0x33, 0x55, 0x65])

/-- Some words written out bit by bit from the encodings of R75 decode to the instructions they stand for. -/
def Obligations.WordsFromTheTableDecode : Prop :=
  decodeWord 0b0010001101000101#16 = .ok (.call 0x345) ∧
  decodeWord 0b0011001101000010#16 = .ok (.seVxKk 3 0x42) ∧
  decodeWord 0b1000000100100100#16 = .ok (.addVxVy 1 2) ∧
  decodeWord 0b1010001100000000#16 = .ok (.ldINnn 0x300) ∧
  decodeWord 0b1101000100101111#16 = .ok (.drwVxVyN 1 2 15) ∧
  decodeWord 0b1111010100001010#16 = .ok (.ldVxK 5)

/-! The Cycle (spec/40_cycle_driver.md, spec/20_memory.md). -/

/-- R92: the Cycle raises when pc is above 4094, and otherwise runs the big-endian word at pc. -/
def Obligations.FetchIsBigEndianAndBounded : Prop :=
  ∀ s : State, s.Running →
    (4094 < s.pc.toNat → cycle s = raise (.outOfBoundsAccess s.pc.toNat) none s) ∧
    (s.pc.toNat ≤ 4094 → ∃ op : Word, op.toNat = (s.mem.peek s.pc.toNat).toNat * 256 + (s.mem.peek (s.pc.toNat + 1)).toNat ∧
      fetch s = .ok op ∧ cycle s = runWord op s)

/-- A step runs the decoded instruction: when the next event is a Cycle that fetches and the two bytes at pc decode to `i`,
the step is `exec i` on the state with that event taken off the schedule, which is otherwise the same state (log 2). -/
def Obligations.StepRunsTheDecodedInstruction : Prop :=
  ∀ (s : State) (i : Instr), s.Fetches →
    decodeBytes [s.mem.peek s.pc.toNat, s.mem.peek (s.pc.toNat + 1)] = .ok (i, []) →
    step s = exec i s.dropEvent ∧ s.dropEvent = { s with schedule := s.schedule.rest }

/-- R90: a step is the event that comes next: the first of those scheduled, then the surroundings' next one (a free value),
or a Cycle where the schedule has only Cycles (the model's own form: log 2). -/
def Obligations.StepTakesTheNextEvent : Prop :=
  ∀ (s : State) (e : Event) (others : Schedule) (n : Nat),
    (s.schedule = .upcoming e others → step s = applyEvent e { s with schedule := others }) ∧
    (s.schedule = .free n → step s = applyEvent (Config.surroundings n) { s with schedule := .free (n + 1) }) ∧
    (s.schedule = .onlyCycles → step s = cycle s)

/-- R90, R182: every sequence of events is a run. As many steps as there are events make a finite sequence happen in order,
whatever comes after it; and the first k steps of the surroundings' endless sequence make its first k events happen in order
(that sequence is a free value, so it is any sequence, one of endless Ticks too: D15, log 2). -/
def Obligations.EverySequenceOfEventsIsARun : Prop :=
  (∀ (es : List Event) (later : Schedule) (s : State),
    steps es.length (s.setSchedule (later.after es)) = applyEvents es (s.setSchedule later)) ∧
  (∀ (n k : Nat) (s : State),
    steps k (s.setSchedule (.free n)) =
      applyEvents ((List.range' n k).map Config.surroundings) (s.setSchedule (.free (n + k))))

/-- R64: bytes that FX55 stores over the next instruction are what the very next fetch reads. -/
def Obligations.StoredBytesAreFetchedNext : Prop :=
  ∀ (s : State) (x : Reg), s.mem.wf = true → 1 ≤ x.val → s.base = s.pc.toNat + 2 → s.base + x.val < 4096 →
    ∃ t op, exec (.ldMemVx x) s = .next t ∧ fetch t = .ok op ∧
      op.toNat = (s.getV 0).toNat * 256 + (s.getV 1).toNat

/-! Control transfer (spec/41_control_flow.md). -/

/-- R101: the target 0xFFF is accepted, and the next fetch raises. -/
def Obligations.JumpSetsPc : Prop :=
  ∀ (nnn : BitVec 12) (s : State), ∃ t, exec (.jp nnn) s = .next t ∧
    t.pc.toNat = nnn.toNat ∧ t.cycles = s.cycles + 1 ∧ OnlyChanges pcAndCycles s t ∧
    (nnn = 0xFFF → s.Running → cycle t = raise (.outOfBoundsAccess 0xFFF) none t)

/-- R103 (the sum is not reduced to 12 bits: the spec's own D29, log 19). -/
def Obligations.JumpWithOffsetAddsV0 : Prop :=
  ∀ (nnn : BitVec 12) (s : State), ∃ t, exec (.jpV0Nnn nnn) s = .next t ∧
    t.pc.toNat = (s.getV 0).toNat + nnn.toNat ∧ t.cycles = s.cycles + 1 ∧ OnlyChanges pcAndCycles s t

/-- R102 (the address saved is pc + 2: the spec's own D3, log 13). -/
def Obligations.CallPushesTheNextAddress : Prop :=
  ∀ (nnn : BitVec 12) (s : State) (j : Fin 16), s.sp.val = j.val → ∃ t, exec (.call nnn) s = .next t ∧
    t.pc.toNat = nnn.toNat ∧ t.stack[j.val] = s.pc + 2 ∧ t.sp.val = s.sp.val + 1 ∧ t.cycles = s.cycles + 1 ∧
    OnlyChanges [.pc, .cycles, .sp, .entry j] s t

/-- R100 (the popped value is the next pc as it is: the spec's own D3, log 13). -/
def Obligations.ReturnPopsIntoPc : Prop :=
  ∀ (s : State) (j : Fin 16), s.sp.val = j.val + 1 → ∃ t, exec .ret s = .next t ∧
    t.pc = s.stack[j.val] ∧ t.sp.val = j.val ∧ t.cycles = s.cycles + 1 ∧ OnlyChanges [.pc, .cycles, .sp] s t

/-- The source's stack round trip (spec/95_test_vectors.md S5): a return from a call continues after the call, whatever ran
between them as long as it left the stack as the call left it. -/
def Obligations.CallThenReturnContinuesAfterTheCall : Prop :=
  ∀ (nnn : BitVec 12) (s t u : State), s.sp.val < 16 → exec (.call nnn) s = .next t → u.sp = t.sp →
    u.stack = t.stack → ∃ w, exec .ret u = .next w ∧ w.pc = s.pc + 2 ∧ w.sp = s.sp ∧
      ∀ j : Fin 16, j.val < s.sp.val → w.stack[j.val] = s.stack[j.val]

/-- R99 (the word "final" is the spec's own D23, log 29): in an ended run a Cycle counts itself and changes nothing else, and
the run stays ended. -/
def Obligations.EndedRunsStayInPlace : Prop :=
  ∀ s : State, s.Ended → ∃ t, cycle s = .next t ∧ t.cycles = s.cycles + 1 ∧ t.Ended ∧ OnlyChanges [.cycles] s t

/-! Skips (spec/42_skips.md, spec/46_input_timers.md). -/

/-- R110 to R113. -/
def Obligations.RegisterSkipsMovePcByFourOrTwo : Prop :=
  ∀ (x y : Reg) (kk : Byte) (s : State),
    (∃ t, exec (.seVxKk x kk) s = .next t ∧ t.pc = (if (s.getV x).toNat = kk.toNat then s.pc + 4 else s.pc + 2) ∧
      t.cycles = s.cycles + 1 ∧ OnlyChanges pcAndCycles s t) ∧
    (∃ t, exec (.sneVxKk x kk) s = .next t ∧ t.pc = (if (s.getV x).toNat ≠ kk.toNat then s.pc + 4 else s.pc + 2) ∧
      t.cycles = s.cycles + 1 ∧ OnlyChanges pcAndCycles s t) ∧
    (∃ t, exec (.seVxVy x y) s = .next t ∧ t.pc = (if (s.getV x).toNat = (s.getV y).toNat then s.pc + 4 else s.pc + 2) ∧
      t.cycles = s.cycles + 1 ∧ OnlyChanges pcAndCycles s t) ∧
    (∃ t, exec (.sneVxVy x y) s = .next t ∧ t.pc = (if (s.getV x).toNat ≠ (s.getV y).toNat then s.pc + 4 else s.pc + 2) ∧
      t.cycles = s.cycles + 1 ∧ OnlyChanges pcAndCycles s t)

/-- R160, R161 where Vx names a key; above 15 they raise (the spec's own D11, log 12; see
`Obligations.RaisingInstructionsLeaveOnlyTheLatch`). -/
def Obligations.KeySkipsTestTheNamedKey : Prop :=
  ∀ (x : Reg) (k : Key) (s : State), (s.getV x).toNat = k.val →
    (∃ t, exec (.skpVx x) s = .next t ∧ t.pc = (if s.keyDown k = true then s.pc + 4 else s.pc + 2) ∧
      t.cycles = s.cycles + 1 ∧ OnlyChanges pcAndCycles s t) ∧
    (∃ t, exec (.sknpVx x) s = .next t ∧ t.pc = (if s.keyDown k = false then s.pc + 4 else s.pc + 2) ∧
      t.cycles = s.cycles + 1 ∧ OnlyChanges pcAndCycles s t)

/-! Registers (spec/43_alu.md). -/

/-- R120, R121, R122: no flag, VF changes only as the destination. -/
def Obligations.LoadAddAndCopyWriteOnlyVx : Prop :=
  ∀ (x y : Reg) (kk : Byte) (s : State),
    (∃ t, exec (.ldVxKk x kk) s = .next t ∧ t.getV x = kk ∧ t.pc = s.pc + 2 ∧ t.cycles = s.cycles + 1 ∧
      OnlyChanges (.reg x :: pcAndCycles) s t) ∧
    (∃ t, exec (.addVxKk x kk) s = .next t ∧ (t.getV x).toNat = ((s.getV x).toNat + kk.toNat) % 256 ∧
      t.pc = s.pc + 2 ∧ t.cycles = s.cycles + 1 ∧ OnlyChanges (.reg x :: pcAndCycles) s t) ∧
    (∃ t, exec (.ldVxVy x y) s = .next t ∧ t.getV x = s.getV y ∧ t.pc = s.pc + 2 ∧ t.cycles = s.cycles + 1 ∧
      OnlyChanges (.reg x :: pcAndCycles) s t)

/-- R123, R124, R125, bit by bit: no flag (the spec's D22, log 27). -/
def Obligations.LogicWorksBitByBit : Prop :=
  ∀ (x y : Reg) (s : State),
    (∃ t, exec (.orVxVy x y) s = .next t ∧
      (∀ k < 8, (t.getV x).getLsbD k = ((s.getV x).getLsbD k || (s.getV y).getLsbD k)) ∧
      t.pc = s.pc + 2 ∧ t.cycles = s.cycles + 1 ∧ OnlyChanges (.reg x :: pcAndCycles) s t) ∧
    (∃ t, exec (.andVxVy x y) s = .next t ∧
      (∀ k < 8, (t.getV x).getLsbD k = ((s.getV x).getLsbD k && (s.getV y).getLsbD k)) ∧
      t.pc = s.pc + 2 ∧ t.cycles = s.cycles + 1 ∧ OnlyChanges (.reg x :: pcAndCycles) s t) ∧
    (∃ t, exec (.xorVxVy x y) s = .next t ∧
      (∀ k < 8, (t.getV x).getLsbD k = ((s.getV x).getLsbD k ^^ (s.getV y).getLsbD k)) ∧
      t.pc = s.pc + 2 ∧ t.cycles = s.cycles + 1 ∧ OnlyChanges (.reg x :: pcAndCycles) s t)

/-- R126, R127, R129 with the laws of R132, for every X and Y. With X = F the result is what VF ends as (the spec's own D5,
log 8), so the flag is stated where X is not F. -/
def Obligations.AddAndSubtractSetVF : Prop :=
  ∀ (x y : Reg) (s : State),
    (∃ t, exec (.addVxVy x y) s = .next t ∧ (t.getV x).toNat = ((s.getV x).toNat + (s.getV y).toNat) % 256 ∧
      (x ≠ 15 → t.getV 15 = if 255 < (s.getV x).toNat + (s.getV y).toNat then 1 else 0) ∧
      t.pc = s.pc + 2 ∧ t.cycles = s.cycles + 1 ∧ OnlyChanges (.reg x :: .reg 15 :: pcAndCycles) s t) ∧
    (∃ t, exec (.subVxVy x y) s = .next t ∧
      ((t.getV x).toNat : Int) = (((s.getV x).toNat : Int) - ((s.getV y).toNat : Int)) % 256 ∧
      (x ≠ 15 → t.getV 15 = if (s.getV y).toNat < (s.getV x).toNat then 1 else 0) ∧
      t.pc = s.pc + 2 ∧ t.cycles = s.cycles + 1 ∧ OnlyChanges (.reg x :: .reg 15 :: pcAndCycles) s t) ∧
    (∃ t, exec (.subnVxVy x y) s = .next t ∧
      ((t.getV x).toNat : Int) = (((s.getV y).toNat : Int) - ((s.getV x).toNat : Int)) % 256 ∧
      (x ≠ 15 → t.getV 15 = if (s.getV x).toNat < (s.getV y).toNat then 1 else 0) ∧
      t.pc = s.pc + 2 ∧ t.cycles = s.cycles + 1 ∧ OnlyChanges (.reg x :: .reg 15 :: pcAndCycles) s t)

/-- R128, R130 with the laws of R132: the operand is Vx, whatever Y is (D22, log 27); with X = F the result is what VF ends
as (D5, log 8). -/
def Obligations.ShiftsMoveOneBitIntoVF : Prop :=
  ∀ (x y : Reg) (s : State),
    (∃ t, exec (.shrVx x y) s = .next t ∧ (t.getV x).toNat = (s.getV x).toNat / 2 ∧
      (x ≠ 15 → (t.getV 15).toNat = (s.getV x).toNat % 2) ∧
      t.pc = s.pc + 2 ∧ t.cycles = s.cycles + 1 ∧ OnlyChanges (.reg x :: .reg 15 :: pcAndCycles) s t) ∧
    (∃ t, exec (.shlVx x y) s = .next t ∧ (t.getV x).toNat = 2 * (s.getV x).toNat % 256 ∧
      (x ≠ 15 → t.getV 15 = if 128 ≤ (s.getV x).toNat then 1 else 0) ∧
      t.pc = s.pc + 2 ∧ t.cycles = s.cycles + 1 ∧ OnlyChanges (.reg x :: .reg 15 :: pcAndCycles) s t)

/-- R131: the byte drawn, a free value (D14, log 3), ANDed with KK; the next draw is another one. -/
def Obligations.RandomByteIsMasked : Prop :=
  ∀ (x : Reg) (kk : Byte) (s : State), ∃ t, exec (.rndVxKk x kk) s = .next t ∧
    (∀ k < 8, (t.getV x).getLsbD k = ((Config.randomByte s.draws).getLsbD k && kk.getLsbD k)) ∧
    t.draws = s.draws + 1 ∧ t.pc = s.pc + 2 ∧ t.cycles = s.cycles + 1 ∧
    OnlyChanges (.reg x :: .draws :: pcAndCycles) s t

/-! The index register and memory (spec/44_index_memory.md). -/

/-- R140. -/
def Obligations.LoadIndexTakesTheAddress : Prop :=
  ∀ (nnn : BitVec 12) (s : State), ∃ t, exec (.ldINnn nnn) s = .next t ∧ t.i.toNat = nnn.toNat ∧
    t.pc = s.pc + 2 ∧ t.cycles = s.cycles + 1 ∧ OnlyChanges (.index :: pcAndCycles) s t

/-- R141, R142: modulo 0x10000 and no flag (D22, log 27); 5 * Vx unmasked (the spec's own D30, log 19). -/
def Obligations.IndexArithmetic : Prop :=
  ∀ (x : Reg) (s : State),
    (∃ t, exec (.addIVx x) s = .next t ∧ t.i.toNat = (s.i.toNat + (s.getV x).toNat) % 0x10000 ∧
      t.pc = s.pc + 2 ∧ t.cycles = s.cycles + 1 ∧ OnlyChanges (.index :: pcAndCycles) s t) ∧
    (∃ t, exec (.ldFVx x) s = .next t ∧ t.i.toNat = 5 * (s.getV x).toNat ∧
      t.pc = s.pc + 2 ∧ t.cycles = s.cycles + 1 ∧ OnlyChanges (.index :: pcAndCycles) s t)

/-- R143 where the three bytes lie below 4096 (D25, log 20). The bytes stored to are the three from I on. -/
def Obligations.DecimalDigitsAreStoredAtI : Prop :=
  ∀ (x : Reg) (s : State), s.mem.wf = true → s.i.toNat + 2 < 4096 → ∃ t, exec (.ldBVx x) s = .next t ∧
    (t.mem.peek s.i.toNat).toNat = (s.getV x).toNat / 100 ∧
    (t.mem.peek (s.i.toNat + 1)).toNat = (s.getV x).toNat / 10 % 10 ∧
    (t.mem.peek (s.i.toNat + 2)).toNat = (s.getV x).toNat % 10 ∧
    t.pc = s.pc + 2 ∧ t.cycles = s.cycles + 1 ∧ OnlyChanges (bytesFrom s.i.toNat 3 ++ pcAndCycles) s t

/-- R144 where the bytes lie below 4096 (D22, D25, log 20): the bytes stored to are the X + 1 from I on, and I stays. -/
def Obligations.RegistersAreStoredAtI : Prop :=
  ∀ (x : Reg) (s : State), s.mem.wf = true → s.i.toNat + x.val < 4096 → ∃ t, exec (.ldMemVx x) s = .next t ∧
    (∀ r : Reg, r.val ≤ x.val → t.mem.peek (s.i.toNat + r.val) = s.getV r) ∧
    t.pc = s.pc + 2 ∧ t.cycles = s.cycles + 1 ∧ OnlyChanges (bytesFrom s.i.toNat (x.val + 1) ++ pcAndCycles) s t

/-- R145 where the bytes lie below 4096 (D22, D25, log 20): no byte of memory changes, nor a register above VX, nor I. -/
def Obligations.RegistersAreLoadedFromI : Prop :=
  ∀ (x : Reg) (s : State), s.i.toNat + x.val < 4096 → ∃ t, exec (.ldVxMem x) s = .next t ∧
    (∀ r : Reg, r.val ≤ x.val → t.getV r = s.mem.peek (s.i.toNat + r.val)) ∧
    t.pc = s.pc + 2 ∧ t.cycles = s.cycles + 1 ∧ OnlyChanges (regsTo x ++ pcAndCycles) s t

/-- FX55, then FX65 with the same I on memory as the store left it, gives back the registers stored. -/
def Obligations.StoreThenLoadRestoresRegisters : Prop :=
  ∀ (x : Reg) (s t u : State), s.mem.wf = true → s.i.toNat + x.val < 4096 → exec (.ldMemVx x) s = .next t →
    u.i = s.i → u.mem = t.mem → ∃ w, exec (.ldVxMem x) u = .next w ∧ ∀ r : Reg, r.val ≤ x.val → w.getV r = s.getV r

/-! The display (spec/45_display.md). -/

/-- R150: VF is not changed. -/
def Obligations.ClearTurnsEveryPixelOff : Prop :=
  ∀ s : State, ∃ t, exec .cls s = .next t ∧ (∀ row col, t.disp.pixel row col = false) ∧
    t.pc = s.pc + 2 ∧ t.cycles = s.cycles + 1 ∧ OnlyChanges (allPixels ++ pcAndCycles) s t

/-- R151 where no sprite byte lies at 4096 or above, for every X, Y and N, N = 0 too: each pixel is inverted exactly when a 1
bit of the sprite falls on it, each coordinate wrapping on its own (the spec's own D7 and D8, log 10, log 11), and VF is 1
exactly when some lit pixel went out (0 otherwise: D6, log 9; VF as a coordinate is read first: D5, log 8). -/
def Obligations.DrawXorsTheSpriteIntoTheDisplay : Prop :=
  ∀ (x y : Reg) (n : Fin 16) (s : State), (n.val = 0 ∨ s.i.toNat + n.val ≤ 4096) →
    ∃ t, exec (.drwVxVyN x y n) s = .next t ∧
      (∀ row col, t.disp.pixel row col = (s.disp.pixel row col ^^ spriteCovers s x y n row col)) ∧
      ((∃ row col, s.disp.pixel row col = true ∧ t.disp.pixel row col = false) → t.getV 15 = 1) ∧
      ((∀ row col, s.disp.pixel row col = true → t.disp.pixel row col = true) → t.getV 15 = 0) ∧
      t.pc = s.pc + 2 ∧ t.cycles = s.cycles + 1 ∧ OnlyChanges (.reg 15 :: (allPixels ++ pcAndCycles)) s t

/-- The source's collision property (spec/95_test_vectors.md S6): the same sprite at the same place twice restores the
display, and the second draw sets VF when the sprite has a 1 bit and found its pixels unlit (D5 to D8, log 8 to log 11). -/
def Obligations.DrawTwiceRestoresTheDisplay : Prop :=
  ∀ (x y : Reg) (n : Fin 16) (s t u : State), (n.val = 0 ∨ s.i.toNat + n.val ≤ 4096) →
    exec (.drwVxVyN x y n) s = .next t → u.disp = t.disp → u.i = s.i → u.mem = s.mem → u.getV x = s.getV x →
    u.getV y = s.getV y → ∃ w, exec (.drwVxVyN x y n) u = .next w ∧ w.disp = s.disp ∧
      ((∃ row col, spriteCovers s x y n row col = true ∧ s.disp.pixel row col = false) → w.getV 15 = 1)

/-- R32, R38: the display output is row-major, 2048 pixels. -/
def Obligations.DisplayOutputIsRowMajor : Prop :=
  ∀ (s : State), (displayOut s).length = 2048 ∧
    ∀ (row : Fin 32) (col : Fin 64), (displayOut s)[row.val * 64 + col.val]? = some (s.disp.pixel row col)

/-! Keys and timers (spec/46_input_timers.md, spec/60_exceptions.md). -/

/-- R162, R164, R165; `sound_active` follows ST at once. -/
def Obligations.TimerInstructionsMoveTheTimers : Prop :=
  ∀ (x : Reg) (s : State),
    (∃ t, exec (.ldVxDt x) s = .next t ∧ t.getV x = s.dt ∧ t.pc = s.pc + 2 ∧ t.cycles = s.cycles + 1 ∧
      OnlyChanges (.reg x :: pcAndCycles) s t) ∧
    (∃ t, exec (.ldDtVx x) s = .next t ∧ t.dt = s.getV x ∧ t.pc = s.pc + 2 ∧ t.cycles = s.cycles + 1 ∧
      OnlyChanges (.delay :: pcAndCycles) s t) ∧
    (∃ t, exec (.ldStVx x) s = .next t ∧ t.st = s.getV x ∧ (soundActive t = true ↔ (s.getV x).toNat ≠ 0) ∧
      t.pc = s.pc + 2 ∧ t.cycles = s.cycles + 1 ∧ OnlyChanges (.sound :: pcAndCycles) s t)

/-- R163 at its Cycle: `wait` and nothing else, pc and cycles included. -/
def Obligations.WaitForKeySetsOnlyWait : Prop :=
  ∀ (x : Reg) (s : State), ∃ t, exec (.ldVxK x) s = .next t ∧ t.wait = some x ∧ OnlyChanges [.wait] s t

/-- R163 whole (the source's S7): after FX0A any number of Cycles changes nothing, and then the press of a key that was up
completes it, once. -/
def Obligations.WaitForKeyCompletesAtAKeyPress : Prop :=
  ∀ (x : Reg) (k : Key) (n : Nat) (s t : State), s.Running → s.keyDown k = false → exec (.ldVxK x) s = .next t →
    applyEvents (List.replicate n .cycle) t = .next t ∧
    ∃ u, applyEvents (List.replicate n .cycle ++ [.keyPress k]) t = .next u ∧ (u.getV x).toNat = k.val ∧
      u.keyDown k = true ∧ u.wait = none ∧ u.pc = s.pc + 2 ∧ u.cycles = s.cycles + 1 ∧
      OnlyChanges (.reg x :: .key k :: pcAndCycles) s u

/-- R184: the key press that resolves a wait. -/
def Obligations.KeyPressResolvesAWait : Prop :=
  ∀ (x : Reg) (k : Key) (s : State), s.fault = none → s.wait = some x → s.keyDown k = false →
    ∃ t, applyEvent (.keyPress k) s = .next t ∧ t.keyDown k = true ∧ (t.getV x).toNat = k.val ∧ t.pc = s.pc + 2 ∧
      t.cycles = s.cycles + 1 ∧ t.wait = none ∧ OnlyChanges (.key k :: .reg x :: .wait :: pcAndCycles) s t

/-- R183, R185: any other press, and every release, changes its key and nothing else. -/
def Obligations.OtherKeyEventsChangeOnlyTheKey : Prop :=
  ∀ (k : Key) (s : State), s.fault = none →
    ((s.wait = none ∨ s.keyDown k = true) → ∃ t, applyEvent (.keyPress k) s = .next t ∧ t.keyDown k = true ∧
      OnlyChanges [.key k] s t) ∧
    (∃ t, applyEvent (.keyRelease k) s = .next t ∧ t.keyDown k = false ∧ OnlyChanges [.key k] s t)

/-- R186 (ascending order: the spec's own D17, log 16): a whole array leaves the latch as the array says, and a pending FX0A
takes the lowest key that was up and is down. -/
def Obligations.KeyArrayDeliversEveryKey : Prop :=
  ∀ (new : Vector Bool 16) (s : State), s.fault = none → ∃ t, applyEvents (keyArrayEvents new) s = .next t ∧
    t.keys = new ∧
    (s.wait = none → t = { s with keys := new }) ∧
    (∀ x, s.wait = some x →
      (∀ k : Key, new[k.val] = true → s.keyDown k = false →
        (∀ j : Key, j.val < k.val → new[j.val] = true → s.keyDown j = true) →
        t = { s with keys := new, wait := none, v := s.v.set x.val (BitVec.ofNat 8 k.val), pc := s.pc + 2,
                     cycles := s.cycles + 1 }) ∧
      ((∀ k : Key, new[k.val] = true → s.keyDown k = true) → t = { s with keys := new }))

/-- R180 (and R181: whatever `wait` is, D16, log 15): n Ticks take n from each timer, stopping at 0, and change nothing
else. -/
def Obligations.TicksCountBothTimersDown : Prop :=
  ∀ (n : Nat) (s : State), s.fault = none → ∃ t, applyEvents (List.replicate n .tick) s = .next t ∧
    t.dt.toNat = s.dt.toNat - n ∧ t.st.toNat = s.st.toNat - n ∧ (soundActive t = true ↔ n < s.st.toNat) ∧
    OnlyChanges [.delay, .sound] s t

/-- R188, R66: a Tick and an instruction that names no timer can be swapped, where the instruction does not raise. -/
def Obligations.TicksCommuteWithOtherInstructions : Prop :=
  ∀ (i : Instr) (s t : State), s.fault = none → (∀ x, i ≠ .ldVxDt x ∧ i ≠ .ldDtVx x ∧ i ≠ .ldStVx x) →
    exec i s = .next t → t.fault = none → exec i (tick s) = .next (tick t)

/-! Fatal errors (spec/60_exceptions.md). -/

/-- R170 to R173, R178 with R175 (the latch is the only thing written: the spec's own D12, log 1; the address recorded is
max(I, 4096): D25, log 20; a key index above 15: D11, log 12). -/
def Obligations.RaisingInstructionsLeaveOnlyTheLatch : Prop :=
  ∀ (x y : Reg) (n : Fin 16) (nnn : BitVec 12) (s : State),
    (s.sp.val = 0 → exec .ret s = .next { s with fault := some ⟨.stackUnderflow, s.pc, some 0x00EE⟩ }) ∧
    (s.sp.val = 16 → exec (.call nnn) s =
      .next { s with fault := some ⟨.stackOverflow, s.pc, some (encode (.call nnn))⟩ }) ∧
    (0 < n.val → 4096 < s.i.toNat + n.val → exec (.drwVxVyN x y n) s =
      .next { s with fault := some ⟨.outOfBoundsAccess (max s.i.toNat 4096), s.pc, some (encode (.drwVxVyN x y n))⟩ }) ∧
    (4096 ≤ s.i.toNat + 2 → exec (.ldBVx x) s =
      .next { s with fault := some ⟨.outOfBoundsAccess (max s.i.toNat 4096), s.pc, some (encode (.ldBVx x))⟩ }) ∧
    (4096 ≤ s.i.toNat + x.val → exec (.ldMemVx x) s =
      .next { s with fault := some ⟨.outOfBoundsAccess (max s.i.toNat 4096), s.pc, some (encode (.ldMemVx x))⟩ }) ∧
    (4096 ≤ s.i.toNat + x.val → exec (.ldVxMem x) s =
      .next { s with fault := some ⟨.outOfBoundsAccess (max s.i.toNat 4096), s.pc, some (encode (.ldVxMem x))⟩ }) ∧
    (15 < (s.getV x).toNat → exec (.skpVx x) s =
      .next { s with fault := some ⟨.keyIndexOutOfRange (s.getV x), s.pc, some (encode (.skpVx x))⟩ }) ∧
    (15 < (s.getV x).toNat → exec (.sknpVx x) s =
      .next { s with fault := some ⟨.keyIndexOutOfRange (s.getV x), s.pc, some (encode (.sknpVx x))⟩ })

/-- R172, R173 with R175: a call on a full stack and a return on an empty one raise, and neither moves pc or touches the
stack. That this is a next state with the latch set, and that all else stays, is the spec's own D12, log 1. -/
def Obligations.StackErrorsLeaveThePcAndTheStack : Prop :=
  ∀ (nnn : BitVec 12) (s : State),
    (s.sp.val = 16 → ∃ t r, exec (.call nnn) s = .next t ∧ t.fault = some r ∧ r.cause = .stackOverflow ∧ t.pc = s.pc ∧
      t.sp = s.sp ∧ t.stack = s.stack) ∧
    (s.sp.val = 0 → ∃ t r, exec .ret s = .next t ∧ t.fault = some r ∧ r.cause = .stackUnderflow ∧ t.pc = s.pc ∧
      t.sp = s.sp ∧ t.stack = s.stack)

/-- R174 with R175 (D12, log 1): a fetched word that selects no row sets the latch and changes nothing else. -/
def Obligations.UnknownWordRaises : Prop :=
  ∀ s : State, s.Running → s.pc.toNat ≤ 4094 → (∀ r ∈ opcodeRows, r.selects (s.mem.wordAt s.pc.toNat) = false) →
    cycle s = .next { s with fault := some ⟨.unknownOpcode (s.mem.wordAt s.pc.toNat), s.pc,
      some (s.mem.wordAt s.pc.toNat)⟩ }

/-- R175 (D12, log 1): whatever error a Cycle raises, everything but the latch is as before, and the latch records the pc and
the fetched word, absent for a fetch fault. -/
def Obligations.FaultingCycleIsPrecise : Prop :=
  ∀ (s t : State) (r : FaultRecord), s.fault = none → cycle s = .next t → t.fault = some r →
    t = { s with fault := some r } ∧ r.atPc = s.pc ∧
    r.opcode = if s.pc.toNat ≤ 4094 then some (s.mem.wordAt s.pc.toNat) else none

/-- R176 (D12, log 1): in a terminated session no event but a reset changes anything. -/
def Obligations.TerminatedSessionIsInert : Prop :=
  ∀ (es : List Event) (s : State), s.fault ≠ none → (∀ e ∈ es, ∀ rom, e ≠ .reset rom) → applyEvents es s = .next s

/-- R91: while a key is awaited, any number of Cycles changes nothing at all. -/
def Obligations.CyclesWhileWaitingChangeNothing : Prop :=
  ∀ (n : Nat) (s : State), s.wait ≠ none → applyEvents (List.replicate n .cycle) s = .next s

/-- R170, R175, R177: a step has a next state, but for a reset with a ROM that is too long; no step is refused. Both halves
are the model's choice: a fatal error answers a next state with the latch set (the spec's own D12, log 1; R175 allows a bare
fault outcome as well), and a ROM that is too long answers a fault outcome without a state (D28, log 21). -/
def Obligations.StepStopsOnlyOnAnOversizedRom : Prop :=
  ∀ s : State, (∃ t, step s = .next t) ∨
    ∃ rom : List Byte, s.nextEvent = .reset rom ∧ 3584 < rom.length ∧
      step s = .fault (.noSession (.romTooLarge rom.length))

/-! Reset (spec/70_reset_and_hazards.md). -/

/-- R201, R177: the ROM's bytes go to 0x200 on; a ROM of more than 3584 bytes is refused, which in the model is a fault
outcome without a state (D28, log 21). -/
def Obligations.ResetLoadsTheRomAt0x200 : Prop :=
  ∀ (rom : List Byte) (s : State),
    (rom.length ≤ 3584 → ∃ t, applyEvent (.reset rom) s = .next t ∧
      ∀ (j : Nat) (h : j < rom.length), t.mem.peek (0x200 + j) = rom[j]) ∧
    (3584 < rom.length → applyEvent (.reset rom) s = .fault (.noSession (.romTooLarge rom.length)))

/-- R200, R41, R58, R202: every piece of the spec's state after a reset, whatever it was before, every byte of memory too:
the font at 0x000 to 0x04F, the ROM from 0x200 on, 0 elsewhere. The font is the parameter FONTSET, `font` (D9, log 4); the
values but for V, pc, the font's place and the ROM are the spec's own D10, log 5 and log 6; that the model's own fields
schedule, draws and font go on is log 25. -/
def Obligations.ResetStartsAFreshSession : Prop :=
  ∀ (rom : List Byte) (s : State), rom.length ≤ 3584 → ∃ t, applyEvent (.reset rom) s = .next t ∧
    (∀ r, t.getV r = 0) ∧ t.pc = 0x200 ∧ t.i = 0 ∧ t.sp = 0 ∧ (∀ j : Fin 16, t.stack[j.val] = 0) ∧ t.dt = 0 ∧ t.st = 0 ∧
    (∀ k, t.keyDown k = false) ∧ t.wait = none ∧ (∀ row col, t.disp.pixel row col = false) ∧ t.cycles = 0 ∧
    t.fault = none ∧
    (∀ j : Fin 80, t.mem.peek j.val = s.font[j.val]) ∧
    (∀ a, 0x050 ≤ a → a < 0x200 → t.mem.peek a = 0) ∧
    (∀ (j : Nat) (h : j < rom.length), t.mem.peek (0x200 + j) = rom[j]) ∧
    (∀ a, 0x200 + rom.length ≤ a → a < 4096 → t.mem.peek a = 0) ∧
    t.draws = s.draws ∧ t.schedule = s.schedule ∧ t.font = s.font

/-- R33, R41, R58: the machine right after reset has the default FONTSET, the bytes of R33's table (PRESUMED, D9, log 4), at
0x000 to 0x04F and 0 in every other byte (D10, log 5), and a reset with the empty ROM gives it back (log 7). -/
def Obligations.ResetStateHoldsTheDefaultFont : Prop :=
  State.reset.font.toList =
    [0xF0, 0x90, 0x90, 0x90, 0xF0] ++ [0x20, 0x60, 0x20, 0x20, 0x70] ++
    [0xF0, 0x10, 0xF0, 0x80, 0xF0] ++ [0xF0, 0x10, 0xF0, 0x10, 0xF0] ++
    [0x90, 0x90, 0xF0, 0x10, 0x10] ++ [0xF0, 0x80, 0xF0, 0x10, 0xF0] ++
    [0xF0, 0x80, 0xF0, 0x90, 0xF0] ++ [0xF0, 0x10, 0x20, 0x40, 0x40] ++
    [0xF0, 0x90, 0xF0, 0x90, 0xF0] ++ [0xF0, 0x90, 0xF0, 0x10, 0xF0] ++
    [0xF0, 0x90, 0xF0, 0x90, 0xF0] ++ [0xE0, 0x90, 0xE0, 0x90, 0xE0] ++
    [0xF0, 0x80, 0x80, 0x80, 0xF0] ++ [0xE0, 0x90, 0x90, 0x90, 0xE0] ++
    [0xF0, 0x80, 0xF0, 0x80, 0xF0] ++ [0xF0, 0x80, 0xF0, 0x80, 0x80] ∧
  (∀ j : Fin 80, State.reset.mem.peek j.val = State.reset.font[j.val]) ∧
  (∀ a, 0x050 ≤ a → a < 4096 → State.reset.mem.peek a = 0) ∧
  applyEvent (.reset []) State.reset = .next State.reset

/-! Invariants and rules of the whole machine. -/

/-- The state after reset meets the invariants. -/
def Obligations.ResetMeetsTheInvariants : Prop := State.reset.Inv ∧ State.reset.WaitsAtItsInstruction

/-- R42, with the memory's canonical form: every step, from every state that meets the invariant, keeps it. -/
def Obligations.EveryStepKeepsTheInvariant : Prop :=
  ∀ s t : State, s.Inv → step s = .next t → t.Inv

/-- R163 (b): every step keeps pc at the FX0A that a pending wait belongs to. -/
def Obligations.EveryStepKeepsAWaitAtItsInstruction : Prop :=
  ∀ s t : State, s.WaitsAtItsInstruction → step s = .next t → t.WaitsAtItsInstruction

/-- R31: a wait begins only with FX0A, and ends only with the press of a key that was up, or with a reset. -/
def Obligations.OnlyFx0aWaitsAndOnlyAKeyEdgeResolves : Prop :=
  ∀ (s t : State) (x : Reg), step s = .next t →
    (s.wait = none → t.wait = some x → s.Fetches ∧ s.mem.wordAt s.pc.toNat = encode (.ldVxK x)) ∧
    (s.wait = some x → t.wait = none →
      (∃ k, s.nextEvent = .keyPress k ∧ s.keyDown k = false) ∨ ∃ rom, s.nextEvent = .reset rom)

/-- R23, R22, R24 to R34, R51: an instruction that answers a next state has raised, changing only the latch (R97, R175, the
spec's own D12, log 1), or has changed only pc, cycles and what its row of the tables names: the frame of every
instruction. -/
def Obligations.EveryInstructionWritesOnlyItsParts : Prop :=
  ∀ (i : Instr) (s t : State), s.mem.wf = true → exec i s = .next t →
    (∃ r, t = { s with fault := some r }) ∨ OnlyChanges (writesOf i s ++ pcAndCycles) s t

/-- R34, R96 (D13, log 14): an instruction counts one cycle when it completes, and none when it raises or is FX0A at its
Cycle. -/
def Obligations.CompletedInstructionsCountOneCycle : Prop :=
  ∀ (i : Instr) (s t : State), s.fault = none → exec i s = .next t →
    t.cycles = if t.fault = none ∧ ∀ x, i ≠ .ldVxK x then s.cycles + 1 else s.cycles

/-- R34: no opcode and no event reads `cycles_emulated`: counting n more before an event other than a reset leaves n more
after it and changes nothing else. -/
def Obligations.CyclesCounterIsNeverRead : Prop :=
  ∀ (e : Event) (n : Nat) (s : State), (∀ rom, e ≠ .reset rom) →
    applyEvent e { s with cycles := s.cycles + n } = addCycles n (applyEvent e s)

/-- R28 (D4, log 13): no event tells apart states that differ in stack entries not in use. -/
def Obligations.DeadStackEntriesAreUnobservable : Prop :=
  ∀ s s' t : State, SameButDeadEntries s s' → step s = .next t → ∃ t', step s' = .next t' ∧ SameButDeadEntries t t'
end

