-- ==== Sys2Proof/Laws/Decode.lean ====
section
/-! SUPPORT. The fields of a packed word, a word and its two bytes, and which words the rows of each mask select. -/

namespace Sys2Proof

theorem toNat_packNNN (base : Nat) (nnn : BitVec 12) (h : base ≤ 0xF000) : (packNNN base nnn).toNat = base + nnn.toNat := by
  have := nnn.isLt
  simp only [packNNN, BitVec.toNat_ofNat]
  omega

theorem toNat_packXKK (base : Nat) (x : Reg) (kk : Byte) (h : base ≤ 0xF000) :
    (packXKK base x kk).toNat = base + x.val * 256 + kk.toNat := by
  have := x.isLt
  have := kk.isLt
  simp only [packXKK, BitVec.toNat_ofNat]
  omega

theorem toNat_packXYN (base : Nat) (x y n : Fin 16) (h : base ≤ 0xF000) :
    (packXYN base x y n).toNat = base + x.val * 256 + y.val * 16 + n.val := by
  have := x.isLt
  have := y.isLt
  have := n.isLt
  simp only [packXYN, BitVec.toNat_ofNat]
  omega

theorem toNat_packX (base : Nat) (x : Reg) (h : base ≤ 0xF0FF) : (packX base x).toNat = base + x.val * 256 := by
  have := x.isLt
  simp only [packX, BitVec.toNat_ofNat]
  omega

theorem fieldClass_eq (op : Word) : fieldClass op = op.toNat / 4096 := by
  have := op.isLt
  simp only [fieldClass, BitVec.extractLsb'_toNat, Nat.shiftRight_eq_div_pow]
  omega

theorem val_fieldX (op : Word) : (fieldX op).val = op.toNat / 256 % 16 := by
  simp [fieldX, Nat.shiftRight_eq_div_pow]

theorem val_fieldY (op : Word) : (fieldY op).val = op.toNat / 16 % 16 := by
  simp [fieldY, Nat.shiftRight_eq_div_pow]

theorem val_fieldN (op : Word) : (fieldN op).val = op.toNat % 16 := by
  simp [fieldN]

theorem toNat_fieldKK (op : Word) : (fieldKK op).toNat = op.toNat % 256 := by
  simp [fieldKK]

theorem toNat_fieldNNN (op : Word) : (fieldNNN op).toNat = op.toNat % 4096 := by
  simp [fieldNNN]

theorem toNat_wordOfBytes (hi lo : Byte) : (wordOfBytes hi lo).toNat = hi.toNat * 256 + lo.toNat := by
  have := hi.isLt
  have := lo.isLt
  simp only [wordOfBytes, BitVec.toNat_ofNat]
  omega

/-- A word is the one its two bytes make. -/
theorem wordOfBytes_bytes (op : Word) : wordOfBytes (highByte op) (lowByte op) = op := by
  apply BitVec.eq_of_toNat_eq
  have := op.isLt
  rw [toNat_wordOfBytes]
  simp only [highByte, lowByte, BitVec.extractLsb'_toNat, Nat.shiftRight_eq_div_pow]
  omega

theorem and_classMask (op : Word) : (op &&& 0xF000#16).toNat = op.toNat / 4096 * 4096 := by
  have h : op &&& 0xF000#16 = (op >>> 12) <<< 12 := by
    apply BitVec.eq_of_getLsbD_eq
    intro i hi
    interval_cases i <;> simp
  have := op.isLt
  rw [h, BitVec.toNat_shiftLeft, BitVec.toNat_ushiftRight, Nat.shiftRight_eq_div_pow, Nat.shiftLeft_eq]
  omega

theorem and_lowNibble (op : Word) : (op &&& 0x000F#16).toNat = op.toNat % 16 := by
  rw [BitVec.toNat_and]
  exact Nat.and_two_pow_sub_one_eq_mod op.toNat 4

theorem and_lowByte (op : Word) : (op &&& 0x00FF#16).toNat = op.toNat % 256 := by
  rw [BitVec.toNat_and]
  exact Nat.and_two_pow_sub_one_eq_mod op.toNat 8

theorem and_F00F (op : Word) : (op &&& 0xF00F#16).toNat = op.toNat / 4096 * 4096 + op.toNat % 16 := by
  have h : op &&& 0xF00F#16 = (op &&& 0xF000#16) ||| (op &&& 0x000F#16) := by
    rw [← BitVec.and_or_distrib_left]; rfl
  rw [h, ← BitVec.add_eq_or_of_and_eq_zero, BitVec.toNat_add, and_classMask, and_lowNibble]
  · have := op.isLt; omega
  · rw [BitVec.and_assoc, ← BitVec.and_assoc (0xF000#16), BitVec.and_comm (0xF000#16), BitVec.and_assoc]; simp

theorem and_F0FF (op : Word) : (op &&& 0xF0FF#16).toNat = op.toNat / 4096 * 4096 + op.toNat % 256 := by
  have h : op &&& 0xF0FF#16 = (op &&& 0xF000#16) ||| (op &&& 0x00FF#16) := by
    rw [← BitVec.and_or_distrib_left]; rfl
  rw [h, ← BitVec.add_eq_or_of_and_eq_zero, BitVec.toNat_add, and_classMask, and_lowByte]
  · have := op.isLt; omega
  · rw [BitVec.and_assoc, ← BitVec.and_assoc (0xF000#16), BitVec.and_comm (0xF000#16), BitVec.and_assoc]; simp

/-- A row that fixes the class selects the words of that class. -/
theorem selects_F000 (p : Nat) (hp : p < 16) (op : Word) :
    OpcodeRow.selects ⟨0xF000, BitVec.ofNat 16 (p * 4096)⟩ op = true ↔ op.toNat / 4096 = p := by
  have := op.isLt
  rw [OpcodeRow.selects, beq_iff_eq, ← BitVec.toNat_inj]
  show (op &&& 0xF000#16).toNat = _ ↔ _
  rw [and_classMask, BitVec.toNat_ofNat]
  omega

/-- A row that fixes the class and the last nibble. -/
theorem selects_F00F (p n : Nat) (hp : p < 16) (hn : n < 16) (op : Word) :
    OpcodeRow.selects ⟨0xF00F, BitVec.ofNat 16 (p * 4096 + n)⟩ op = true ↔ op.toNat / 4096 = p ∧ op.toNat % 16 = n := by
  have := op.isLt
  rw [OpcodeRow.selects, beq_iff_eq, ← BitVec.toNat_inj]
  show (op &&& 0xF00F#16).toNat = _ ↔ _
  rw [and_F00F, BitVec.toNat_ofNat]
  omega

/-- A row that fixes the class and the low byte. -/
theorem selects_F0FF (p n : Nat) (hp : p < 16) (hn : n < 256) (op : Word) :
    OpcodeRow.selects ⟨0xF0FF, BitVec.ofNat 16 (p * 4096 + n)⟩ op = true ↔ op.toNat / 4096 = p ∧ op.toNat % 256 = n := by
  have := op.isLt
  rw [OpcodeRow.selects, beq_iff_eq, ← BitVec.toNat_inj]
  show (op &&& 0xF0FF#16).toNat = _ ↔ _
  rw [and_F0FF, BitVec.toNat_ofNat]
  omega

end Sys2Proof
end

