-- ==== Sys2Proof/Laws/Memory.lean ====
section
/-! SUPPORT. The laws of memory: a read after a write, and every memory operation keeps the canonical form, in which memories
that read alike are equal. -/

namespace Sys2Proof.Machine

/-- Past the font an unlisted address reads as 0. -/
theorem resetByte_of_ge {a : Nat} (h : 80 ≤ a) : resetByte a = 0 := by
  rw [resetByte, List.getD_eq_default]
  exact h

@[simp] theorem Memory.peek_nil (a : Nat) : Memory.peek [] a = resetByte a := rfl

theorem Memory.peek_cons (k : Nat) (b : Byte) (m : Memory) (a : Nat) :
    Memory.peek ((k, b) :: m) a = if k = a then b else Memory.peek m a := by
  simp only [Memory.peek, Memory.find]
  split <;> simp

/-- The first address listed, or none below a bound: an address below `lo` is not listed. -/
theorem Memory.peek_of_lt {m : Memory} : ∀ {lo a : Nat}, Memory.wfFrom lo m = true → a < lo → m.peek a = resetByte a := by
  induction m with
  | nil => intros; rfl
  | cons c m ih =>
    intro lo a hm ha
    obtain ⟨k, b⟩ := c
    simp only [Memory.wfFrom, Bool.and_eq_true, decide_eq_true_eq, bne_iff_ne] at hm
    obtain ⟨⟨⟨hk, -⟩, -⟩, hm⟩ := hm
    rw [Memory.peek_cons, if_neg (by omega)]
    exact ih hm (by omega)

/-- A canonical memory stays so above any lower bound. -/
theorem Memory.wfFrom_mono {m : Memory} {lo lo' : Nat} (h : Memory.wfFrom lo m = true) (hl : lo' ≤ lo) :
    Memory.wfFrom lo' m = true := by
  cases m with
  | nil => rfl
  | cons c m =>
    obtain ⟨k, b⟩ := c
    simp only [Memory.wfFrom, Bool.and_eq_true, decide_eq_true_eq] at h ⊢
    exact ⟨⟨⟨by omega, h.1.1.2⟩, h.1.2⟩, h.2⟩

theorem Memory.wfFrom_listed {m : Memory} {a lo : Nat} (b : Byte) (h : Memory.wfFrom (a + 1) m = true) (hl : lo ≤ a)
    (ha : a < Config.memorySize) : Memory.wfFrom lo (Memory.listed a b m) = true := by
  unfold Memory.listed
  split
  · exact Memory.wfFrom_mono h (by omega)
  · simp only [Memory.wfFrom, Bool.and_eq_true, decide_eq_true_eq, bne_iff_ne]
    exact ⟨⟨⟨hl, ha⟩, ‹_›⟩, h⟩

theorem Memory.peek_listed {m : Memory} {a : Nat} (b : Byte) (h : Memory.wfFrom (a + 1) m = true) (c : Nat) :
    (Memory.listed a b m).peek c = if c = a then b else m.peek c := by
  unfold Memory.listed
  split
  · rename_i hb
    split
    · rename_i hc
      rw [hc, Memory.peek_of_lt h (by omega), hb]
    · rfl
  · rw [Memory.peek_cons]
    simp only [eq_comm]

theorem Memory.wfFrom_put {m : Memory} : ∀ {lo a : Nat} (b : Byte), Memory.wfFrom lo m = true → lo ≤ a →
    a < Config.memorySize → Memory.wfFrom lo (Memory.put m a b) = true := by
  induction m with
  | nil => intro lo a b h hl ha; exact Memory.wfFrom_listed b rfl hl ha
  | cons c m ih =>
    intro lo a b h hl ha
    obtain ⟨k, d⟩ := c
    have h' := h
    simp only [Memory.wfFrom, Bool.and_eq_true, decide_eq_true_eq] at h'
    obtain ⟨⟨⟨hk, hk'⟩, hd⟩, hm⟩ := h'
    unfold Memory.put
    split
    · refine Memory.wfFrom_listed b ?_ hl ha
      simp only [Memory.wfFrom, Bool.and_eq_true, decide_eq_true_eq]
      exact ⟨⟨⟨by omega, hk'⟩, hd⟩, hm⟩
    · split
      · rename_i hak
        exact Memory.wfFrom_listed b (hak ▸ hm) hl ha
      · simp only [Memory.wfFrom, Bool.and_eq_true, decide_eq_true_eq]
        exact ⟨⟨⟨hk, hk'⟩, hd⟩, ih b hm (by omega) ha⟩

/-- Writing one byte keeps the canonical form. -/
theorem Memory.wf_put {m : Memory} {a : Nat} (b : Byte) (h : m.wf = true) (ha : a < Config.memorySize) :
    (m.put a b).wf = true :=
  Memory.wfFrom_put b h (Nat.zero_le a) ha

theorem Memory.wfFrom_put_peek {m : Memory} : ∀ {lo a : Nat} (b : Byte) (c : Nat), Memory.wfFrom lo m = true →
    (m.put a b).peek c = if c = a then b else m.peek c := by
  induction m with
  | nil => intro lo a b c _; exact Memory.peek_listed b rfl c
  | cons d m ih =>
    intro lo a b c h
    obtain ⟨k, e⟩ := d
    have h' := h
    simp only [Memory.wfFrom, Bool.and_eq_true, decide_eq_true_eq] at h'
    obtain ⟨⟨⟨-, hk'⟩, hd⟩, hm⟩ := h'
    unfold Memory.put
    split
    · refine Memory.peek_listed b ?_ c
      simp only [Memory.wfFrom, Bool.and_eq_true, decide_eq_true_eq]
      exact ⟨⟨⟨by omega, hk'⟩, hd⟩, hm⟩
    · split
      · rename_i hak
        rw [Memory.peek_listed b (hak ▸ hm), Memory.peek_cons]
        by_cases hc : c = a
        · simp [hc]
        · rw [if_neg hc, if_neg hc, if_neg (by omega)]
      · rw [Memory.peek_cons, Memory.peek_cons, ih b c hm]
        by_cases hc : c = a
        · simp only [hc, if_true]
          rw [if_neg (by omega)]
        · simp only [hc, if_false]

/-- Reading a byte after one byte is written. -/
theorem Memory.peek_put {m : Memory} {a : Nat} (b : Byte) (c : Nat) (h : m.wf = true) :
    (m.put a b).peek c = if c = a then b else m.peek c :=
  Memory.wfFrom_put_peek b c h

/-- Storing a run of bytes keeps the canonical form. -/
theorem Memory.wf_store {bs : List Byte} : ∀ {m : Memory} {a : Nat}, m.wf = true → a + bs.length ≤ Config.memorySize →
    (m.store a bs).wf = true := by
  induction bs with
  | nil => intro m a h _; exact h
  | cons b bs ih =>
    intro m a h ha
    simp only [List.length_cons] at ha
    exact ih (Memory.wf_put b h (by omega)) (by omega)

/-- Reading a byte after a run of bytes is stored: the byte stored there, or what was there before. -/
theorem Memory.peek_store {bs : List Byte} : ∀ {m : Memory} {a : Nat} (c : Nat), m.wf = true →
    a + bs.length ≤ Config.memorySize →
    (m.store a bs).peek c = if a ≤ c ∧ c < a + bs.length then bs.getD (c - a) 0 else m.peek c := by
  induction bs with
  | nil => intro m a c h _; simp [Memory.store]
  | cons b bs ih =>
    intro m a c h ha
    simp only [List.length_cons] at ha ⊢
    rw [Memory.store, ih c (Memory.wf_put b h (by omega)) (by omega), Memory.peek_put b c h]
    by_cases hc : c = a
    · subst hc
      simp
    · by_cases hin : a + 1 ≤ c ∧ c < a + 1 + bs.length
      · rw [if_pos hin, if_pos (by omega), show c - a = (c - (a + 1)) + 1 by omega, List.getD_cons_succ]
      · rw [if_neg hin, if_neg hc, if_neg (by omega)]

/-- The memory of a fresh session is canonical. -/
theorem Memory.wfFrom_ofRom {bs : List Byte} : ∀ {a : Nat}, a + bs.length ≤ Config.memorySize →
    Memory.wfFrom a (Memory.ofRom a bs) = true := by
  induction bs with
  | nil => intros; rfl
  | cons b bs ih =>
    intro a ha
    simp only [List.length_cons] at ha
    exact Memory.wfFrom_listed b (ih (by omega)) (Nat.le_refl a) (by omega)

theorem Memory.wf_ofRom {bs : List Byte} {a : Nat} (h : a + bs.length ≤ Config.memorySize) :
    (Memory.ofRom a bs).wf = true :=
  Memory.wfFrom_mono (Memory.wfFrom_ofRom h) (Nat.zero_le a)

/-- Reading it: the bytes laid over from the load address on, the reset contents elsewhere. -/
theorem Memory.peek_ofRom {bs : List Byte} : ∀ {a : Nat} (c : Nat), a + bs.length ≤ Config.memorySize →
    (Memory.ofRom a bs).peek c = if a ≤ c ∧ c < a + bs.length then bs.getD (c - a) 0 else resetByte c := by
  induction bs with
  | nil => intro a c _; simp [Memory.ofRom]
  | cons b bs ih =>
    intro a c ha
    simp only [List.length_cons] at ha ⊢
    rw [Memory.ofRom, Memory.peek_listed b (Memory.wfFrom_ofRom (by omega)), ih c (by omega)]
    by_cases hc : c = a
    · subst hc
      simp
    · by_cases hin : a + 1 ≤ c ∧ c < a + 1 + bs.length
      · rw [if_neg hc, if_pos hin, if_pos (by omega), show c - a = (c - (a + 1)) + 1 by omega, List.getD_cons_succ]
      · rw [if_neg hin, if_neg hc, if_neg (by omega)]

theorem Memory.wf_fresh {font : Vector Byte 80} {rom : List Byte} (h : rom.length ≤ Config.maxRom) :
    (Memory.fresh font rom).wf = true := by
  have hr : Config.romBase + rom.length ≤ Config.memorySize := by
    simp only [Config.romBase, Config.maxRom, Config.memorySize] at *; omega
  exact Memory.wf_store (Memory.wf_ofRom hr) (by simp [Config.memorySize])

/-- Every byte of the memory of a fresh session: the font, the ROM, and 0 elsewhere. -/
theorem Memory.peek_fresh {font : Vector Byte 80} {rom : List Byte} (a : Nat) (h : rom.length ≤ Config.maxRom) :
    (Memory.fresh font rom).peek a =
      if a < 80 then font.toList.getD a 0
      else if 0x200 ≤ a ∧ a < 0x200 + rom.length then rom.getD (a - 0x200) 0 else 0 := by
  have hr : Config.romBase + rom.length ≤ Config.memorySize := by
    simp only [Config.romBase, Config.maxRom, Config.memorySize] at *; omega
  rw [Memory.fresh, Memory.peek_store a (Memory.wf_ofRom hr) (by simp [Config.memorySize]), Memory.peek_ofRom a hr]
  by_cases hf : a < 80
  · simp [hf]
  · have : resetByte a = 0 := resetByte_of_ge (by omega)
    simp [hf, this, Config.romBase]

/-- Canonical memories that read alike are equal. -/
theorem Memory.eq_of_peek : ∀ {m m' : Memory} {lo : Nat}, Memory.wfFrom lo m = true → Memory.wfFrom lo m' = true →
    (∀ a, m.peek a = m'.peek a) → m = m' := by
  intro m
  induction m with
  | nil =>
    intro m' lo _ h' he
    cases m' with
    | nil => rfl
    | cons c m' =>
      obtain ⟨k, b⟩ := c
      simp only [Memory.wfFrom, Bool.and_eq_true, bne_iff_ne] at h'
      have := he k
      rw [Memory.peek_cons, if_pos rfl, Memory.peek_nil] at this
      exact absurd this.symm h'.1.2
  | cons c m ih =>
    intro m' lo h h' he
    obtain ⟨k, b⟩ := c
    have hw := h
    simp only [Memory.wfFrom, Bool.and_eq_true, decide_eq_true_eq, bne_iff_ne] at hw
    obtain ⟨⟨⟨hk, -⟩, hb⟩, hm⟩ := hw
    cases m' with
    | nil =>
      have := he k
      rw [Memory.peek_cons, if_pos rfl, Memory.peek_nil] at this
      exact absurd this hb
    | cons c' m' =>
      obtain ⟨k', b'⟩ := c'
      have hw' := h'
      simp only [Memory.wfFrom, Bool.and_eq_true, decide_eq_true_eq, bne_iff_ne] at hw'
      obtain ⟨⟨⟨hk', -⟩, hb'⟩, hm'⟩ := hw'
      have hkk : k = k' := by
        by_contra hne
        rcases Nat.lt_or_gt_of_ne hne with hlt | hlt
        · have := he k
          rw [Memory.peek_cons, if_pos rfl, Memory.peek_cons, if_neg (by omega), Memory.peek_of_lt hm' (by omega)] at this
          exact hb this
        · have := he k'
          rw [Memory.peek_cons, if_neg (by omega), Memory.peek_of_lt hm (by omega), Memory.peek_cons, if_pos rfl] at this
          exact hb' this.symm
      subst hkk
      have hbb : b = b' := by
        have := he k
        rwa [Memory.peek_cons, if_pos rfl, Memory.peek_cons, if_pos rfl] at this
      subst hbb
      refine congrArg _ (ih hm hm' fun a => ?_)
      by_cases ha : a < k + 1
      · rw [Memory.peek_of_lt hm ha, Memory.peek_of_lt hm' ha]
      · have := he a
        rwa [Memory.peek_cons, if_neg (by omega), Memory.peek_cons, if_neg (by omega)] at this

@[simp] theorem Memory.length_load (m : Memory) (a n : Nat) : (m.load a n).length = n := by simp [Memory.load]

theorem Memory.getElem_load (m : Memory) (a n k : Nat) (h : k < n) : (m.load a n)[k]? = some (m.peek (a + k)) := by
  simp [Memory.load, h]

theorem badAddress_eq_none {a n : Nat} : badAddress a n = none ↔ n = 0 ∨ a + n ≤ Config.memorySize := by
  unfold badAddress
  split <;> simp_all

theorem badAddress_eq_some {a n c : Nat} :
    badAddress a n = some c ↔ 0 < n ∧ Config.memorySize < a + n ∧ c = max a Config.memorySize := by
  unfold badAddress
  split
  · simp; omega
  · simp only [Option.some.injEq]
    constructor
    · intro h; omega
    · intro h; exact h.2.2.symm

end Sys2Proof.Machine
end

