-- ==== Sys2Proof/Laws/State.lean ====
section
/-! SUPPORT. What each shared update of the state leaves of each field: one lemma per field per update, so that no later
proof unfolds a record update. -/

namespace Sys2Proof.Machine

/-! `setV` -/

@[simp] theorem State.setV_v (s : State) (x : Reg) (b : Byte) : (s.setV x b).v = s.v.set x.val b := rfl
@[simp] theorem State.setV_i (s : State) (x : Reg) (b : Byte) : (s.setV x b).i = s.i := rfl
@[simp] theorem State.setV_pc (s : State) (x : Reg) (b : Byte) : (s.setV x b).pc = s.pc := rfl
@[simp] theorem State.setV_sp (s : State) (x : Reg) (b : Byte) : (s.setV x b).sp = s.sp := rfl
@[simp] theorem State.setV_stack (s : State) (x : Reg) (b : Byte) : (s.setV x b).stack = s.stack := rfl
@[simp] theorem State.setV_dt (s : State) (x : Reg) (b : Byte) : (s.setV x b).dt = s.dt := rfl
@[simp] theorem State.setV_st (s : State) (x : Reg) (b : Byte) : (s.setV x b).st = s.st := rfl
@[simp] theorem State.setV_keys (s : State) (x : Reg) (b : Byte) : (s.setV x b).keys = s.keys := rfl
@[simp] theorem State.setV_wait (s : State) (x : Reg) (b : Byte) : (s.setV x b).wait = s.wait := rfl
@[simp] theorem State.setV_disp (s : State) (x : Reg) (b : Byte) : (s.setV x b).disp = s.disp := rfl
@[simp] theorem State.setV_mem (s : State) (x : Reg) (b : Byte) : (s.setV x b).mem = s.mem := rfl
@[simp] theorem State.setV_cycles (s : State) (x : Reg) (b : Byte) : (s.setV x b).cycles = s.cycles := rfl
@[simp] theorem State.setV_fault (s : State) (x : Reg) (b : Byte) : (s.setV x b).fault = s.fault := rfl
@[simp] theorem State.setV_draws (s : State) (x : Reg) (b : Byte) : (s.setV x b).draws = s.draws := rfl
@[simp] theorem State.setV_schedule (s : State) (x : Reg) (b : Byte) : (s.setV x b).schedule = s.schedule := rfl
@[simp] theorem State.setV_font (s : State) (x : Reg) (b : Byte) : (s.setV x b).font = s.font := rfl

/-! `setRegs` -/

@[simp] theorem State.setRegs_v (s : State) (v : Vector Byte 16) : (s.setRegs v).v = v := rfl
@[simp] theorem State.setRegs_i (s : State) (v : Vector Byte 16) : (s.setRegs v).i = s.i := rfl
@[simp] theorem State.setRegs_pc (s : State) (v : Vector Byte 16) : (s.setRegs v).pc = s.pc := rfl
@[simp] theorem State.setRegs_sp (s : State) (v : Vector Byte 16) : (s.setRegs v).sp = s.sp := rfl
@[simp] theorem State.setRegs_stack (s : State) (v : Vector Byte 16) : (s.setRegs v).stack = s.stack := rfl
@[simp] theorem State.setRegs_dt (s : State) (v : Vector Byte 16) : (s.setRegs v).dt = s.dt := rfl
@[simp] theorem State.setRegs_st (s : State) (v : Vector Byte 16) : (s.setRegs v).st = s.st := rfl
@[simp] theorem State.setRegs_keys (s : State) (v : Vector Byte 16) : (s.setRegs v).keys = s.keys := rfl
@[simp] theorem State.setRegs_wait (s : State) (v : Vector Byte 16) : (s.setRegs v).wait = s.wait := rfl
@[simp] theorem State.setRegs_disp (s : State) (v : Vector Byte 16) : (s.setRegs v).disp = s.disp := rfl
@[simp] theorem State.setRegs_mem (s : State) (v : Vector Byte 16) : (s.setRegs v).mem = s.mem := rfl
@[simp] theorem State.setRegs_cycles (s : State) (v : Vector Byte 16) : (s.setRegs v).cycles = s.cycles := rfl
@[simp] theorem State.setRegs_fault (s : State) (v : Vector Byte 16) : (s.setRegs v).fault = s.fault := rfl
@[simp] theorem State.setRegs_draws (s : State) (v : Vector Byte 16) : (s.setRegs v).draws = s.draws := rfl
@[simp] theorem State.setRegs_schedule (s : State) (v : Vector Byte 16) : (s.setRegs v).schedule = s.schedule := rfl
@[simp] theorem State.setRegs_font (s : State) (v : Vector Byte 16) : (s.setRegs v).font = s.font := rfl

/-! `setI` -/

@[simp] theorem State.setI_v (s : State) (w : Word) : (s.setI w).v = s.v := rfl
@[simp] theorem State.setI_i (s : State) (w : Word) : (s.setI w).i = w := rfl
@[simp] theorem State.setI_pc (s : State) (w : Word) : (s.setI w).pc = s.pc := rfl
@[simp] theorem State.setI_sp (s : State) (w : Word) : (s.setI w).sp = s.sp := rfl
@[simp] theorem State.setI_stack (s : State) (w : Word) : (s.setI w).stack = s.stack := rfl
@[simp] theorem State.setI_dt (s : State) (w : Word) : (s.setI w).dt = s.dt := rfl
@[simp] theorem State.setI_st (s : State) (w : Word) : (s.setI w).st = s.st := rfl
@[simp] theorem State.setI_keys (s : State) (w : Word) : (s.setI w).keys = s.keys := rfl
@[simp] theorem State.setI_wait (s : State) (w : Word) : (s.setI w).wait = s.wait := rfl
@[simp] theorem State.setI_disp (s : State) (w : Word) : (s.setI w).disp = s.disp := rfl
@[simp] theorem State.setI_mem (s : State) (w : Word) : (s.setI w).mem = s.mem := rfl
@[simp] theorem State.setI_cycles (s : State) (w : Word) : (s.setI w).cycles = s.cycles := rfl
@[simp] theorem State.setI_fault (s : State) (w : Word) : (s.setI w).fault = s.fault := rfl
@[simp] theorem State.setI_draws (s : State) (w : Word) : (s.setI w).draws = s.draws := rfl
@[simp] theorem State.setI_schedule (s : State) (w : Word) : (s.setI w).schedule = s.schedule := rfl
@[simp] theorem State.setI_font (s : State) (w : Word) : (s.setI w).font = s.font := rfl

/-! `setDt` -/

@[simp] theorem State.setDt_v (s : State) (b : Byte) : (s.setDt b).v = s.v := rfl
@[simp] theorem State.setDt_i (s : State) (b : Byte) : (s.setDt b).i = s.i := rfl
@[simp] theorem State.setDt_pc (s : State) (b : Byte) : (s.setDt b).pc = s.pc := rfl
@[simp] theorem State.setDt_sp (s : State) (b : Byte) : (s.setDt b).sp = s.sp := rfl
@[simp] theorem State.setDt_stack (s : State) (b : Byte) : (s.setDt b).stack = s.stack := rfl
@[simp] theorem State.setDt_dt (s : State) (b : Byte) : (s.setDt b).dt = b := rfl
@[simp] theorem State.setDt_st (s : State) (b : Byte) : (s.setDt b).st = s.st := rfl
@[simp] theorem State.setDt_keys (s : State) (b : Byte) : (s.setDt b).keys = s.keys := rfl
@[simp] theorem State.setDt_wait (s : State) (b : Byte) : (s.setDt b).wait = s.wait := rfl
@[simp] theorem State.setDt_disp (s : State) (b : Byte) : (s.setDt b).disp = s.disp := rfl
@[simp] theorem State.setDt_mem (s : State) (b : Byte) : (s.setDt b).mem = s.mem := rfl
@[simp] theorem State.setDt_cycles (s : State) (b : Byte) : (s.setDt b).cycles = s.cycles := rfl
@[simp] theorem State.setDt_fault (s : State) (b : Byte) : (s.setDt b).fault = s.fault := rfl
@[simp] theorem State.setDt_draws (s : State) (b : Byte) : (s.setDt b).draws = s.draws := rfl
@[simp] theorem State.setDt_schedule (s : State) (b : Byte) : (s.setDt b).schedule = s.schedule := rfl
@[simp] theorem State.setDt_font (s : State) (b : Byte) : (s.setDt b).font = s.font := rfl

/-! `setSt` -/

@[simp] theorem State.setSt_v (s : State) (b : Byte) : (s.setSt b).v = s.v := rfl
@[simp] theorem State.setSt_i (s : State) (b : Byte) : (s.setSt b).i = s.i := rfl
@[simp] theorem State.setSt_pc (s : State) (b : Byte) : (s.setSt b).pc = s.pc := rfl
@[simp] theorem State.setSt_sp (s : State) (b : Byte) : (s.setSt b).sp = s.sp := rfl
@[simp] theorem State.setSt_stack (s : State) (b : Byte) : (s.setSt b).stack = s.stack := rfl
@[simp] theorem State.setSt_dt (s : State) (b : Byte) : (s.setSt b).dt = s.dt := rfl
@[simp] theorem State.setSt_st (s : State) (b : Byte) : (s.setSt b).st = b := rfl
@[simp] theorem State.setSt_keys (s : State) (b : Byte) : (s.setSt b).keys = s.keys := rfl
@[simp] theorem State.setSt_wait (s : State) (b : Byte) : (s.setSt b).wait = s.wait := rfl
@[simp] theorem State.setSt_disp (s : State) (b : Byte) : (s.setSt b).disp = s.disp := rfl
@[simp] theorem State.setSt_mem (s : State) (b : Byte) : (s.setSt b).mem = s.mem := rfl
@[simp] theorem State.setSt_cycles (s : State) (b : Byte) : (s.setSt b).cycles = s.cycles := rfl
@[simp] theorem State.setSt_fault (s : State) (b : Byte) : (s.setSt b).fault = s.fault := rfl
@[simp] theorem State.setSt_draws (s : State) (b : Byte) : (s.setSt b).draws = s.draws := rfl
@[simp] theorem State.setSt_schedule (s : State) (b : Byte) : (s.setSt b).schedule = s.schedule := rfl
@[simp] theorem State.setSt_font (s : State) (b : Byte) : (s.setSt b).font = s.font := rfl

/-! `setWait` -/

@[simp] theorem State.setWait_v (s : State) (w : Option Reg) : (s.setWait w).v = s.v := rfl
@[simp] theorem State.setWait_i (s : State) (w : Option Reg) : (s.setWait w).i = s.i := rfl
@[simp] theorem State.setWait_pc (s : State) (w : Option Reg) : (s.setWait w).pc = s.pc := rfl
@[simp] theorem State.setWait_sp (s : State) (w : Option Reg) : (s.setWait w).sp = s.sp := rfl
@[simp] theorem State.setWait_stack (s : State) (w : Option Reg) : (s.setWait w).stack = s.stack := rfl
@[simp] theorem State.setWait_dt (s : State) (w : Option Reg) : (s.setWait w).dt = s.dt := rfl
@[simp] theorem State.setWait_st (s : State) (w : Option Reg) : (s.setWait w).st = s.st := rfl
@[simp] theorem State.setWait_keys (s : State) (w : Option Reg) : (s.setWait w).keys = s.keys := rfl
@[simp] theorem State.setWait_wait (s : State) (w : Option Reg) : (s.setWait w).wait = w := rfl
@[simp] theorem State.setWait_disp (s : State) (w : Option Reg) : (s.setWait w).disp = s.disp := rfl
@[simp] theorem State.setWait_mem (s : State) (w : Option Reg) : (s.setWait w).mem = s.mem := rfl
@[simp] theorem State.setWait_cycles (s : State) (w : Option Reg) : (s.setWait w).cycles = s.cycles := rfl
@[simp] theorem State.setWait_fault (s : State) (w : Option Reg) : (s.setWait w).fault = s.fault := rfl
@[simp] theorem State.setWait_draws (s : State) (w : Option Reg) : (s.setWait w).draws = s.draws := rfl
@[simp] theorem State.setWait_schedule (s : State) (w : Option Reg) : (s.setWait w).schedule = s.schedule := rfl
@[simp] theorem State.setWait_font (s : State) (w : Option Reg) : (s.setWait w).font = s.font := rfl

/-! `setKey` -/

@[simp] theorem State.setKey_v (s : State) (k : Key) (d : Bool) : (s.setKey k d).v = s.v := rfl
@[simp] theorem State.setKey_i (s : State) (k : Key) (d : Bool) : (s.setKey k d).i = s.i := rfl
@[simp] theorem State.setKey_pc (s : State) (k : Key) (d : Bool) : (s.setKey k d).pc = s.pc := rfl
@[simp] theorem State.setKey_sp (s : State) (k : Key) (d : Bool) : (s.setKey k d).sp = s.sp := rfl
@[simp] theorem State.setKey_stack (s : State) (k : Key) (d : Bool) : (s.setKey k d).stack = s.stack := rfl
@[simp] theorem State.setKey_dt (s : State) (k : Key) (d : Bool) : (s.setKey k d).dt = s.dt := rfl
@[simp] theorem State.setKey_st (s : State) (k : Key) (d : Bool) : (s.setKey k d).st = s.st := rfl
@[simp] theorem State.setKey_keys (s : State) (k : Key) (d : Bool) : (s.setKey k d).keys = s.keys.set k.val d := rfl
@[simp] theorem State.setKey_wait (s : State) (k : Key) (d : Bool) : (s.setKey k d).wait = s.wait := rfl
@[simp] theorem State.setKey_disp (s : State) (k : Key) (d : Bool) : (s.setKey k d).disp = s.disp := rfl
@[simp] theorem State.setKey_mem (s : State) (k : Key) (d : Bool) : (s.setKey k d).mem = s.mem := rfl
@[simp] theorem State.setKey_cycles (s : State) (k : Key) (d : Bool) : (s.setKey k d).cycles = s.cycles := rfl
@[simp] theorem State.setKey_fault (s : State) (k : Key) (d : Bool) : (s.setKey k d).fault = s.fault := rfl
@[simp] theorem State.setKey_draws (s : State) (k : Key) (d : Bool) : (s.setKey k d).draws = s.draws := rfl
@[simp] theorem State.setKey_schedule (s : State) (k : Key) (d : Bool) : (s.setKey k d).schedule = s.schedule := rfl
@[simp] theorem State.setKey_font (s : State) (k : Key) (d : Bool) : (s.setKey k d).font = s.font := rfl

/-! `setDisp` -/

@[simp] theorem State.setDisp_v (s : State) (d : Display) : (s.setDisp d).v = s.v := rfl
@[simp] theorem State.setDisp_i (s : State) (d : Display) : (s.setDisp d).i = s.i := rfl
@[simp] theorem State.setDisp_pc (s : State) (d : Display) : (s.setDisp d).pc = s.pc := rfl
@[simp] theorem State.setDisp_sp (s : State) (d : Display) : (s.setDisp d).sp = s.sp := rfl
@[simp] theorem State.setDisp_stack (s : State) (d : Display) : (s.setDisp d).stack = s.stack := rfl
@[simp] theorem State.setDisp_dt (s : State) (d : Display) : (s.setDisp d).dt = s.dt := rfl
@[simp] theorem State.setDisp_st (s : State) (d : Display) : (s.setDisp d).st = s.st := rfl
@[simp] theorem State.setDisp_keys (s : State) (d : Display) : (s.setDisp d).keys = s.keys := rfl
@[simp] theorem State.setDisp_wait (s : State) (d : Display) : (s.setDisp d).wait = s.wait := rfl
@[simp] theorem State.setDisp_disp (s : State) (d : Display) : (s.setDisp d).disp = d := rfl
@[simp] theorem State.setDisp_mem (s : State) (d : Display) : (s.setDisp d).mem = s.mem := rfl
@[simp] theorem State.setDisp_cycles (s : State) (d : Display) : (s.setDisp d).cycles = s.cycles := rfl
@[simp] theorem State.setDisp_fault (s : State) (d : Display) : (s.setDisp d).fault = s.fault := rfl
@[simp] theorem State.setDisp_draws (s : State) (d : Display) : (s.setDisp d).draws = s.draws := rfl
@[simp] theorem State.setDisp_schedule (s : State) (d : Display) : (s.setDisp d).schedule = s.schedule := rfl
@[simp] theorem State.setDisp_font (s : State) (d : Display) : (s.setDisp d).font = s.font := rfl

/-! `setMem` -/

@[simp] theorem State.setMem_v (s : State) (m : Memory) : (s.setMem m).v = s.v := rfl
@[simp] theorem State.setMem_i (s : State) (m : Memory) : (s.setMem m).i = s.i := rfl
@[simp] theorem State.setMem_pc (s : State) (m : Memory) : (s.setMem m).pc = s.pc := rfl
@[simp] theorem State.setMem_sp (s : State) (m : Memory) : (s.setMem m).sp = s.sp := rfl
@[simp] theorem State.setMem_stack (s : State) (m : Memory) : (s.setMem m).stack = s.stack := rfl
@[simp] theorem State.setMem_dt (s : State) (m : Memory) : (s.setMem m).dt = s.dt := rfl
@[simp] theorem State.setMem_st (s : State) (m : Memory) : (s.setMem m).st = s.st := rfl
@[simp] theorem State.setMem_keys (s : State) (m : Memory) : (s.setMem m).keys = s.keys := rfl
@[simp] theorem State.setMem_wait (s : State) (m : Memory) : (s.setMem m).wait = s.wait := rfl
@[simp] theorem State.setMem_disp (s : State) (m : Memory) : (s.setMem m).disp = s.disp := rfl
@[simp] theorem State.setMem_mem (s : State) (m : Memory) : (s.setMem m).mem = m := rfl
@[simp] theorem State.setMem_cycles (s : State) (m : Memory) : (s.setMem m).cycles = s.cycles := rfl
@[simp] theorem State.setMem_fault (s : State) (m : Memory) : (s.setMem m).fault = s.fault := rfl
@[simp] theorem State.setMem_draws (s : State) (m : Memory) : (s.setMem m).draws = s.draws := rfl
@[simp] theorem State.setMem_schedule (s : State) (m : Memory) : (s.setMem m).schedule = s.schedule := rfl
@[simp] theorem State.setMem_font (s : State) (m : Memory) : (s.setMem m).font = s.font := rfl

/-! `setFault` -/

@[simp] theorem State.setFault_v (s : State) (r : FaultRecord) : (s.setFault r).v = s.v := rfl
@[simp] theorem State.setFault_i (s : State) (r : FaultRecord) : (s.setFault r).i = s.i := rfl
@[simp] theorem State.setFault_pc (s : State) (r : FaultRecord) : (s.setFault r).pc = s.pc := rfl
@[simp] theorem State.setFault_sp (s : State) (r : FaultRecord) : (s.setFault r).sp = s.sp := rfl
@[simp] theorem State.setFault_stack (s : State) (r : FaultRecord) : (s.setFault r).stack = s.stack := rfl
@[simp] theorem State.setFault_dt (s : State) (r : FaultRecord) : (s.setFault r).dt = s.dt := rfl
@[simp] theorem State.setFault_st (s : State) (r : FaultRecord) : (s.setFault r).st = s.st := rfl
@[simp] theorem State.setFault_keys (s : State) (r : FaultRecord) : (s.setFault r).keys = s.keys := rfl
@[simp] theorem State.setFault_wait (s : State) (r : FaultRecord) : (s.setFault r).wait = s.wait := rfl
@[simp] theorem State.setFault_disp (s : State) (r : FaultRecord) : (s.setFault r).disp = s.disp := rfl
@[simp] theorem State.setFault_mem (s : State) (r : FaultRecord) : (s.setFault r).mem = s.mem := rfl
@[simp] theorem State.setFault_cycles (s : State) (r : FaultRecord) : (s.setFault r).cycles = s.cycles := rfl
@[simp] theorem State.setFault_fault (s : State) (r : FaultRecord) : (s.setFault r).fault = some r := rfl
@[simp] theorem State.setFault_draws (s : State) (r : FaultRecord) : (s.setFault r).draws = s.draws := rfl
@[simp] theorem State.setFault_schedule (s : State) (r : FaultRecord) : (s.setFault r).schedule = s.schedule := rfl
@[simp] theorem State.setFault_font (s : State) (r : FaultRecord) : (s.setFault r).font = s.font := rfl

/-! `complete` -/

@[simp] theorem State.complete_v (s : State) (w : Word) : (s.complete w).v = s.v := rfl
@[simp] theorem State.complete_i (s : State) (w : Word) : (s.complete w).i = s.i := rfl
@[simp] theorem State.complete_pc (s : State) (w : Word) : (s.complete w).pc = w := rfl
@[simp] theorem State.complete_sp (s : State) (w : Word) : (s.complete w).sp = s.sp := rfl
@[simp] theorem State.complete_stack (s : State) (w : Word) : (s.complete w).stack = s.stack := rfl
@[simp] theorem State.complete_dt (s : State) (w : Word) : (s.complete w).dt = s.dt := rfl
@[simp] theorem State.complete_st (s : State) (w : Word) : (s.complete w).st = s.st := rfl
@[simp] theorem State.complete_keys (s : State) (w : Word) : (s.complete w).keys = s.keys := rfl
@[simp] theorem State.complete_wait (s : State) (w : Word) : (s.complete w).wait = s.wait := rfl
@[simp] theorem State.complete_disp (s : State) (w : Word) : (s.complete w).disp = s.disp := rfl
@[simp] theorem State.complete_mem (s : State) (w : Word) : (s.complete w).mem = s.mem := rfl
@[simp] theorem State.complete_cycles (s : State) (w : Word) : (s.complete w).cycles = s.cycles + 1 := rfl
@[simp] theorem State.complete_fault (s : State) (w : Word) : (s.complete w).fault = s.fault := rfl
@[simp] theorem State.complete_draws (s : State) (w : Word) : (s.complete w).draws = s.draws := rfl
@[simp] theorem State.complete_schedule (s : State) (w : Word) : (s.complete w).schedule = s.schedule := rfl
@[simp] theorem State.complete_font (s : State) (w : Word) : (s.complete w).font = s.font := rfl

/-! `fallThrough` -/

@[simp] theorem State.fallThrough_v (s : State) : (s.fallThrough).v = s.v := rfl
@[simp] theorem State.fallThrough_i (s : State) : (s.fallThrough).i = s.i := rfl
@[simp] theorem State.fallThrough_pc (s : State) : (s.fallThrough).pc = s.pc + 2 := rfl
@[simp] theorem State.fallThrough_sp (s : State) : (s.fallThrough).sp = s.sp := rfl
@[simp] theorem State.fallThrough_stack (s : State) : (s.fallThrough).stack = s.stack := rfl
@[simp] theorem State.fallThrough_dt (s : State) : (s.fallThrough).dt = s.dt := rfl
@[simp] theorem State.fallThrough_st (s : State) : (s.fallThrough).st = s.st := rfl
@[simp] theorem State.fallThrough_keys (s : State) : (s.fallThrough).keys = s.keys := rfl
@[simp] theorem State.fallThrough_wait (s : State) : (s.fallThrough).wait = s.wait := rfl
@[simp] theorem State.fallThrough_disp (s : State) : (s.fallThrough).disp = s.disp := rfl
@[simp] theorem State.fallThrough_mem (s : State) : (s.fallThrough).mem = s.mem := rfl
@[simp] theorem State.fallThrough_cycles (s : State) : (s.fallThrough).cycles = s.cycles + 1 := rfl
@[simp] theorem State.fallThrough_fault (s : State) : (s.fallThrough).fault = s.fault := rfl
@[simp] theorem State.fallThrough_draws (s : State) : (s.fallThrough).draws = s.draws := rfl
@[simp] theorem State.fallThrough_schedule (s : State) : (s.fallThrough).schedule = s.schedule := rfl
@[simp] theorem State.fallThrough_font (s : State) : (s.fallThrough).font = s.font := rfl

/-! `skipIf` -/

@[simp] theorem State.skipIf_v (s : State) (c : Bool) : (s.skipIf c).v = s.v := rfl
@[simp] theorem State.skipIf_i (s : State) (c : Bool) : (s.skipIf c).i = s.i := rfl
@[simp] theorem State.skipIf_pc (s : State) (c : Bool) : (s.skipIf c).pc = if c then s.pc + 4 else s.pc + 2 := rfl
@[simp] theorem State.skipIf_sp (s : State) (c : Bool) : (s.skipIf c).sp = s.sp := rfl
@[simp] theorem State.skipIf_stack (s : State) (c : Bool) : (s.skipIf c).stack = s.stack := rfl
@[simp] theorem State.skipIf_dt (s : State) (c : Bool) : (s.skipIf c).dt = s.dt := rfl
@[simp] theorem State.skipIf_st (s : State) (c : Bool) : (s.skipIf c).st = s.st := rfl
@[simp] theorem State.skipIf_keys (s : State) (c : Bool) : (s.skipIf c).keys = s.keys := rfl
@[simp] theorem State.skipIf_wait (s : State) (c : Bool) : (s.skipIf c).wait = s.wait := rfl
@[simp] theorem State.skipIf_disp (s : State) (c : Bool) : (s.skipIf c).disp = s.disp := rfl
@[simp] theorem State.skipIf_mem (s : State) (c : Bool) : (s.skipIf c).mem = s.mem := rfl
@[simp] theorem State.skipIf_cycles (s : State) (c : Bool) : (s.skipIf c).cycles = s.cycles + 1 := rfl
@[simp] theorem State.skipIf_fault (s : State) (c : Bool) : (s.skipIf c).fault = s.fault := rfl
@[simp] theorem State.skipIf_draws (s : State) (c : Bool) : (s.skipIf c).draws = s.draws := rfl
@[simp] theorem State.skipIf_schedule (s : State) (c : Bool) : (s.skipIf c).schedule = s.schedule := rfl
@[simp] theorem State.skipIf_font (s : State) (c : Bool) : (s.skipIf c).font = s.font := rfl

/-! `writeFlagged` -/

@[simp] theorem State.writeFlagged_v (s : State) (x : Reg) (a b : Byte) : (s.writeFlagged x a b).v = (s.v.set VF.val a).set x.val b := rfl
@[simp] theorem State.writeFlagged_i (s : State) (x : Reg) (a b : Byte) : (s.writeFlagged x a b).i = s.i := rfl
@[simp] theorem State.writeFlagged_pc (s : State) (x : Reg) (a b : Byte) : (s.writeFlagged x a b).pc = s.pc := rfl
@[simp] theorem State.writeFlagged_sp (s : State) (x : Reg) (a b : Byte) : (s.writeFlagged x a b).sp = s.sp := rfl
@[simp] theorem State.writeFlagged_stack (s : State) (x : Reg) (a b : Byte) : (s.writeFlagged x a b).stack = s.stack := rfl
@[simp] theorem State.writeFlagged_dt (s : State) (x : Reg) (a b : Byte) : (s.writeFlagged x a b).dt = s.dt := rfl
@[simp] theorem State.writeFlagged_st (s : State) (x : Reg) (a b : Byte) : (s.writeFlagged x a b).st = s.st := rfl
@[simp] theorem State.writeFlagged_keys (s : State) (x : Reg) (a b : Byte) : (s.writeFlagged x a b).keys = s.keys := rfl
@[simp] theorem State.writeFlagged_wait (s : State) (x : Reg) (a b : Byte) : (s.writeFlagged x a b).wait = s.wait := rfl
@[simp] theorem State.writeFlagged_disp (s : State) (x : Reg) (a b : Byte) : (s.writeFlagged x a b).disp = s.disp := rfl
@[simp] theorem State.writeFlagged_mem (s : State) (x : Reg) (a b : Byte) : (s.writeFlagged x a b).mem = s.mem := rfl
@[simp] theorem State.writeFlagged_cycles (s : State) (x : Reg) (a b : Byte) : (s.writeFlagged x a b).cycles = s.cycles := rfl
@[simp] theorem State.writeFlagged_fault (s : State) (x : Reg) (a b : Byte) : (s.writeFlagged x a b).fault = s.fault := rfl
@[simp] theorem State.writeFlagged_draws (s : State) (x : Reg) (a b : Byte) : (s.writeFlagged x a b).draws = s.draws := rfl
@[simp] theorem State.writeFlagged_schedule (s : State) (x : Reg) (a b : Byte) : (s.writeFlagged x a b).schedule = s.schedule := rfl
@[simp] theorem State.writeFlagged_font (s : State) (x : Reg) (a b : Byte) : (s.writeFlagged x a b).font = s.font := rfl

/-! `draw` -/

@[simp] theorem State.draw_v (s : State) : (s.draw.2).v = s.v := rfl
@[simp] theorem State.draw_i (s : State) : (s.draw.2).i = s.i := rfl
@[simp] theorem State.draw_pc (s : State) : (s.draw.2).pc = s.pc := rfl
@[simp] theorem State.draw_sp (s : State) : (s.draw.2).sp = s.sp := rfl
@[simp] theorem State.draw_stack (s : State) : (s.draw.2).stack = s.stack := rfl
@[simp] theorem State.draw_dt (s : State) : (s.draw.2).dt = s.dt := rfl
@[simp] theorem State.draw_st (s : State) : (s.draw.2).st = s.st := rfl
@[simp] theorem State.draw_keys (s : State) : (s.draw.2).keys = s.keys := rfl
@[simp] theorem State.draw_wait (s : State) : (s.draw.2).wait = s.wait := rfl
@[simp] theorem State.draw_disp (s : State) : (s.draw.2).disp = s.disp := rfl
@[simp] theorem State.draw_mem (s : State) : (s.draw.2).mem = s.mem := rfl
@[simp] theorem State.draw_cycles (s : State) : (s.draw.2).cycles = s.cycles := rfl
@[simp] theorem State.draw_fault (s : State) : (s.draw.2).fault = s.fault := rfl
@[simp] theorem State.draw_draws (s : State) : (s.draw.2).draws = s.draws + 1 := rfl
@[simp] theorem State.draw_schedule (s : State) : (s.draw.2).schedule = s.schedule := rfl
@[simp] theorem State.draw_font (s : State) : (s.draw.2).font = s.font := rfl

/-! `dropEvent` -/

@[simp] theorem State.dropEvent_v (s : State) : (s.dropEvent).v = s.v := rfl
@[simp] theorem State.dropEvent_i (s : State) : (s.dropEvent).i = s.i := rfl
@[simp] theorem State.dropEvent_pc (s : State) : (s.dropEvent).pc = s.pc := rfl
@[simp] theorem State.dropEvent_sp (s : State) : (s.dropEvent).sp = s.sp := rfl
@[simp] theorem State.dropEvent_stack (s : State) : (s.dropEvent).stack = s.stack := rfl
@[simp] theorem State.dropEvent_dt (s : State) : (s.dropEvent).dt = s.dt := rfl
@[simp] theorem State.dropEvent_st (s : State) : (s.dropEvent).st = s.st := rfl
@[simp] theorem State.dropEvent_keys (s : State) : (s.dropEvent).keys = s.keys := rfl
@[simp] theorem State.dropEvent_wait (s : State) : (s.dropEvent).wait = s.wait := rfl
@[simp] theorem State.dropEvent_disp (s : State) : (s.dropEvent).disp = s.disp := rfl
@[simp] theorem State.dropEvent_mem (s : State) : (s.dropEvent).mem = s.mem := rfl
@[simp] theorem State.dropEvent_cycles (s : State) : (s.dropEvent).cycles = s.cycles := rfl
@[simp] theorem State.dropEvent_fault (s : State) : (s.dropEvent).fault = s.fault := rfl
@[simp] theorem State.dropEvent_draws (s : State) : (s.dropEvent).draws = s.draws := rfl
@[simp] theorem State.dropEvent_schedule (s : State) : (s.dropEvent).schedule = s.schedule.rest := rfl
@[simp] theorem State.dropEvent_font (s : State) : (s.dropEvent).font = s.font := rfl

/-! `setSchedule` -/

@[simp] theorem State.setSchedule_v (s : State) (sch : Schedule) : (s.setSchedule sch).v = s.v := rfl
@[simp] theorem State.setSchedule_i (s : State) (sch : Schedule) : (s.setSchedule sch).i = s.i := rfl
@[simp] theorem State.setSchedule_pc (s : State) (sch : Schedule) : (s.setSchedule sch).pc = s.pc := rfl
@[simp] theorem State.setSchedule_sp (s : State) (sch : Schedule) : (s.setSchedule sch).sp = s.sp := rfl
@[simp] theorem State.setSchedule_stack (s : State) (sch : Schedule) : (s.setSchedule sch).stack = s.stack := rfl
@[simp] theorem State.setSchedule_dt (s : State) (sch : Schedule) : (s.setSchedule sch).dt = s.dt := rfl
@[simp] theorem State.setSchedule_st (s : State) (sch : Schedule) : (s.setSchedule sch).st = s.st := rfl
@[simp] theorem State.setSchedule_keys (s : State) (sch : Schedule) : (s.setSchedule sch).keys = s.keys := rfl
@[simp] theorem State.setSchedule_wait (s : State) (sch : Schedule) : (s.setSchedule sch).wait = s.wait := rfl
@[simp] theorem State.setSchedule_disp (s : State) (sch : Schedule) : (s.setSchedule sch).disp = s.disp := rfl
@[simp] theorem State.setSchedule_mem (s : State) (sch : Schedule) : (s.setSchedule sch).mem = s.mem := rfl
@[simp] theorem State.setSchedule_cycles (s : State) (sch : Schedule) : (s.setSchedule sch).cycles = s.cycles := rfl
@[simp] theorem State.setSchedule_fault (s : State) (sch : Schedule) : (s.setSchedule sch).fault = s.fault := rfl
@[simp] theorem State.setSchedule_draws (s : State) (sch : Schedule) : (s.setSchedule sch).draws = s.draws := rfl
@[simp] theorem State.setSchedule_schedule (s : State) (sch : Schedule) : (s.setSchedule sch).schedule = sch := rfl
@[simp] theorem State.setSchedule_font (s : State) (sch : Schedule) : (s.setSchedule sch).font = s.font := rfl

/-! `resolveWait` -/

@[simp] theorem resolveWait_v (x : Reg) (k : Key) (s : State) : (resolveWait x k s).v = s.v.set x.val (BitVec.ofNat 8 k.val) := rfl
@[simp] theorem resolveWait_i (x : Reg) (k : Key) (s : State) : (resolveWait x k s).i = s.i := rfl
@[simp] theorem resolveWait_pc (x : Reg) (k : Key) (s : State) : (resolveWait x k s).pc = s.pc + 2 := rfl
@[simp] theorem resolveWait_sp (x : Reg) (k : Key) (s : State) : (resolveWait x k s).sp = s.sp := rfl
@[simp] theorem resolveWait_stack (x : Reg) (k : Key) (s : State) : (resolveWait x k s).stack = s.stack := rfl
@[simp] theorem resolveWait_dt (x : Reg) (k : Key) (s : State) : (resolveWait x k s).dt = s.dt := rfl
@[simp] theorem resolveWait_st (x : Reg) (k : Key) (s : State) : (resolveWait x k s).st = s.st := rfl
@[simp] theorem resolveWait_keys (x : Reg) (k : Key) (s : State) : (resolveWait x k s).keys = s.keys := rfl
@[simp] theorem resolveWait_wait (x : Reg) (k : Key) (s : State) : (resolveWait x k s).wait = none := rfl
@[simp] theorem resolveWait_disp (x : Reg) (k : Key) (s : State) : (resolveWait x k s).disp = s.disp := rfl
@[simp] theorem resolveWait_mem (x : Reg) (k : Key) (s : State) : (resolveWait x k s).mem = s.mem := rfl
@[simp] theorem resolveWait_cycles (x : Reg) (k : Key) (s : State) : (resolveWait x k s).cycles = s.cycles + 1 := rfl
@[simp] theorem resolveWait_fault (x : Reg) (k : Key) (s : State) : (resolveWait x k s).fault = s.fault := rfl
@[simp] theorem resolveWait_draws (x : Reg) (k : Key) (s : State) : (resolveWait x k s).draws = s.draws := rfl
@[simp] theorem resolveWait_schedule (x : Reg) (k : Key) (s : State) : (resolveWait x k s).schedule = s.schedule := rfl
@[simp] theorem resolveWait_font (x : Reg) (k : Key) (s : State) : (resolveWait x k s).font = s.font := rfl

/-! Reading a register and a key: unchanged by every update but those that write them. -/

@[simp] theorem State.getV_setI (s : State) (w : Word) (q : Reg) : (s.setI w).getV q = s.getV q := rfl
@[simp] theorem State.getV_setDt (s : State) (b : Byte) (q : Reg) : (s.setDt b).getV q = s.getV q := rfl
@[simp] theorem State.getV_setSt (s : State) (b : Byte) (q : Reg) : (s.setSt b).getV q = s.getV q := rfl
@[simp] theorem State.getV_setWait (s : State) (w : Option Reg) (q : Reg) : (s.setWait w).getV q = s.getV q := rfl
@[simp] theorem State.getV_setKey (s : State) (k : Key) (d : Bool) (q : Reg) : (s.setKey k d).getV q = s.getV q := rfl
@[simp] theorem State.getV_setDisp (s : State) (d : Display) (q : Reg) : (s.setDisp d).getV q = s.getV q := rfl
@[simp] theorem State.getV_setMem (s : State) (m : Memory) (q : Reg) : (s.setMem m).getV q = s.getV q := rfl
@[simp] theorem State.getV_setFault (s : State) (r : FaultRecord) (q : Reg) : (s.setFault r).getV q = s.getV q := rfl
@[simp] theorem State.getV_complete (s : State) (w : Word) (q : Reg) : (s.complete w).getV q = s.getV q := rfl
@[simp] theorem State.getV_fallThrough (s : State) (q : Reg) : (s.fallThrough).getV q = s.getV q := rfl
@[simp] theorem State.getV_skipIf (s : State) (c : Bool) (q : Reg) : (s.skipIf c).getV q = s.getV q := rfl
@[simp] theorem State.getV_draw (s : State) (q : Reg) : (s.draw.2).getV q = s.getV q := rfl
@[simp] theorem State.getV_dropEvent (s : State) (q : Reg) : (s.dropEvent).getV q = s.getV q := rfl

@[simp] theorem State.keyDown_setV (s : State) (x : Reg) (b : Byte) (j : Key) : (s.setV x b).keyDown j = s.keyDown j := rfl
@[simp] theorem State.keyDown_setRegs (s : State) (v : Vector Byte 16) (j : Key) : (s.setRegs v).keyDown j = s.keyDown j := rfl
@[simp] theorem State.keyDown_setI (s : State) (w : Word) (j : Key) : (s.setI w).keyDown j = s.keyDown j := rfl
@[simp] theorem State.keyDown_setDt (s : State) (b : Byte) (j : Key) : (s.setDt b).keyDown j = s.keyDown j := rfl
@[simp] theorem State.keyDown_setSt (s : State) (b : Byte) (j : Key) : (s.setSt b).keyDown j = s.keyDown j := rfl
@[simp] theorem State.keyDown_setWait (s : State) (w : Option Reg) (j : Key) : (s.setWait w).keyDown j = s.keyDown j := rfl
@[simp] theorem State.keyDown_setDisp (s : State) (d : Display) (j : Key) : (s.setDisp d).keyDown j = s.keyDown j := rfl
@[simp] theorem State.keyDown_setMem (s : State) (m : Memory) (j : Key) : (s.setMem m).keyDown j = s.keyDown j := rfl
@[simp] theorem State.keyDown_setFault (s : State) (r : FaultRecord) (j : Key) : (s.setFault r).keyDown j = s.keyDown j := rfl
@[simp] theorem State.keyDown_complete (s : State) (w : Word) (j : Key) : (s.complete w).keyDown j = s.keyDown j := rfl
@[simp] theorem State.keyDown_fallThrough (s : State) (j : Key) : (s.fallThrough).keyDown j = s.keyDown j := rfl
@[simp] theorem State.keyDown_skipIf (s : State) (c : Bool) (j : Key) : (s.skipIf c).keyDown j = s.keyDown j := rfl
@[simp] theorem State.keyDown_writeFlagged (s : State) (x : Reg) (a b : Byte) (j : Key) : (s.writeFlagged x a b).keyDown j = s.keyDown j := rfl
@[simp] theorem State.keyDown_draw (s : State) (j : Key) : (s.draw.2).keyDown j = s.keyDown j := rfl
@[simp] theorem State.keyDown_dropEvent (s : State) (j : Key) : (s.dropEvent).keyDown j = s.keyDown j := rfl

@[simp] theorem keyDown_resolveWait (x : Reg) (k : Key) (s : State) (j : Key) :
    (resolveWait x k s).keyDown j = s.keyDown j := rfl

theorem State.draw_fst (s : State) : s.draw.1 = Config.randomByte s.draws := rfl

end Sys2Proof.Machine
end

