-- ==== Sys2Proof/Laws/Registers.lean ====
section
/-! SUPPORT. Reading the registers and the key latch after a write. -/

namespace Sys2Proof.Machine

theorem State.getV_eq_of_v {s t : State} (h : t.v = s.v) (r : Reg) : t.getV r = s.getV r := by
  simp only [State.getV, h]

theorem State.getV_setV (s : State) (x : Reg) (b : Byte) (r : Reg) :
    (s.setV x b).getV r = if r = x then b else s.getV r := by
  simp only [State.getV, State.setV_v, Vector.getElem_set, Fin.ext_iff, eq_comm]

@[simp] theorem State.getV_setV_same (s : State) (x : Reg) (b : Byte) : (s.setV x b).getV x = b := by
  simp [State.getV_setV]

theorem State.getV_setV_other (s : State) {x r : Reg} (b : Byte) (h : r ≠ x) : (s.setV x b).getV r = s.getV r := by
  simp [State.getV_setV, h]

/-- The flag-writing order: with X = F the result stays, otherwise VF holds the flag and Vx the result. -/
theorem State.getV_writeFlagged (s : State) (x : Reg) (flag result : Byte) (r : Reg) :
    (s.writeFlagged x flag result).getV r = if r = x then result else if r = VF then flag else s.getV r := by
  simp only [State.writeFlagged, State.getV_setV]

theorem State.keyDown_setKey (s : State) (k : Key) (d : Bool) (j : Key) :
    (s.setKey k d).keyDown j = if j = k then d else s.keyDown j := by
  simp only [State.keyDown, State.setKey_keys, Vector.getElem_set, Fin.ext_iff, eq_comm]

@[simp] theorem State.getV_setRegs (s : State) (v : Vector Byte 16) (r : Reg) : (s.setRegs v).getV r = v[r.val] := rfl

theorem getV_resolveWait (x : Reg) (k : Key) (s : State) (r : Reg) :
    (resolveWait x k s).getV r = if r = x then BitVec.ofNat 8 k.val else s.getV r :=
  State.getV_setV s x _ r

/-- What FX65 leaves in each register: the byte loaded where there is one, the old value elsewhere. -/
theorem getElem_withFirstRegs (v : Vector Byte 16) (bs : List Byte) (r : Reg) :
    (withFirstRegs v bs)[r.val] = bs.getD r.val v[r.val] := by
  simp [withFirstRegs]

theorem State.getElem_regsUpTo (s : State) (x r : Reg) (h : r.val ≤ x.val) :
    (s.regsUpTo x)[r.val]? = some (s.getV r) := by
  have hr : r.val < x.val + 1 := by omega
  simp [State.regsUpTo, countUpTo, State.getV, hr]

@[simp] theorem State.length_regsUpTo (s : State) (x : Reg) : (s.regsUpTo x).length = x.val + 1 := by
  simp [State.regsUpTo, countUpTo]

@[simp] theorem length_decimalDigits (b : Byte) : (decimalDigits b).length = 3 := rfl

end Sys2Proof.Machine
end

