-- ==== Sys2Proof/Laws/Ops.lean ====
section
/-! SUPPORT. What each shared operation can do, said once: the return stack, raising, reset, the accesses through I, one
pixel, and the Cycle. -/

namespace Sys2Proof.Machine

/-- The state after a push that fits. -/
def State.pushed (s : State) (w : Word) (h : s.sp.val < 16) : State :=
  { s with stack := s.stack.set s.sp.val w h, sp := ⟨s.sp.val + 1, by omega⟩ }

/-- A push succeeds exactly when sp < 16. -/
theorem State.push_of_lt (s : State) (w : Word) (h : s.sp.val < 16) : s.push w = some (s.pushed w h) := by
  simp only [State.push, State.pushed, h, dif_pos]

theorem State.push_eq_none {s : State} {w : Word} : s.push w = none ↔ s.sp.val = 16 := by
  have := s.sp.isLt
  unfold State.push
  split <;> simp <;> omega

/-- The state after a pop of a stack that is not empty. -/
def State.popped (s : State) : State := { s with sp := ⟨s.sp.val - 1, by omega⟩ }

/-- A pop succeeds exactly when sp > 0, and answers the entry below sp. -/
theorem State.pop_of_pos (s : State) (h : 0 < s.sp.val) :
    s.pop = some (s.stack[s.sp.val - 1]'(by omega), s.popped) := by
  simp only [State.pop, State.popped, h, dif_pos]

theorem State.pop_eq_none {s : State} : s.pop = none ↔ s.sp.val = 0 := by
  unfold State.pop
  split <;> simp <;> omega

theorem resetSession_of_fits {rom : List Byte} (s : State) (h : rom.length ≤ Config.maxRom) :
    resetSession rom s =
      .next { State.reset with mem := Memory.fresh s.font rom, draws := s.draws, schedule := s.schedule, font := s.font } := by
  simp only [resetSession, romFits, h, decide_true, if_true]

theorem resetSession_too_long {rom : List Byte} (s : State) (h : Config.maxRom < rom.length) :
    resetSession rom s = .fault (.noSession (.romTooLarge rom.length)) := by
  simp only [resetSession, romFits, Nat.not_le.mpr h, decide_false, Bool.false_eq_true, if_false]

/-- A store through I that stays below 4096 happens whole. -/
theorem storeAtIndex_inside {s : State} {bs : List Byte} (op : Word) (h : s.base + bs.length ≤ Config.memorySize) :
    storeAtIndex op bs s = .next (s.setMem (s.mem.store s.base bs)).fallThrough := by
  simp only [storeAtIndex, badAddress_eq_none.mpr (Or.inr h)]

/-- A store through I that would pass 0xFFF does nothing but raise. -/
theorem storeAtIndex_outside {s : State} {bs : List Byte} (op : Word) (h : 0 < bs.length)
    (h' : Config.memorySize < s.base + bs.length) :
    storeAtIndex op bs s = raise (.outOfBoundsAccess (max s.base Config.memorySize)) (some op) s := by
  simp only [storeAtIndex, badAddress_eq_some.mpr ⟨h, h', rfl⟩]

theorem Display.pixel_clear (row : Fin 32) (col : Fin 64) : Display.clear.pixel row col = false := by
  simp [Display.pixel, Display.clear]

/-- Inverting one pixel inverts that pixel and no other. -/
theorem Display.pixel_invert (d : Display) (row r : Fin 32) (col c : Fin 64) :
    (d.invert row col).pixel r c = if r = row ∧ c = col then !d.pixel r c else d.pixel r c := by
  simp only [Display.pixel, Display.invert, Vector.getElem_set]
  by_cases hr : row.val = r.val
  · have hr' : r = row := Fin.ext hr.symm
    subst hr'
    by_cases hc : c = col
    · subst hc
      simp
    · have : ¬ c.val = col.val := fun h => hc (Fin.ext h)
      simp [hc, this]
  · have : ¬ r = row := fun h => hr (congrArg Fin.val h).symm
    simp [hr, this]

theorem keyIndex_of_lt {b : Byte} (h : b.toNat < 16) : keyIndex b = some ⟨b.toNat, h⟩ := by
  simp only [keyIndex, h, dif_pos]

theorem keyIndex_of_ge {b : Byte} (h : 15 < b.toNat) : keyIndex b = none := by
  simp only [keyIndex, Nat.not_lt.mpr h, dif_neg, not_false_eq_true]

theorem fetch_of_le {s : State} (h : s.pc.toNat ≤ Config.lastFetch) : fetch s = .ok (s.mem.wordAt s.pc.toNat) := by
  simp only [fetch, h, if_true]

theorem fetch_of_gt {s : State} (h : Config.lastFetch < s.pc.toNat) : fetch s = .error s.pc.toNat := by
  simp only [fetch, Nat.not_le.mpr h, if_false]

/-- A Cycle in a terminated session or during a wait changes nothing. -/
theorem cycle_idle {s : State} (h : s.fault ≠ none ∨ s.wait ≠ none) : cycle s = .next s := by
  have : (s.fault.isSome || s.wait.isSome) = true := by
    simpa [Option.isSome_iff_ne_none] using h
  simp only [cycle, this, if_true]

/-- A Cycle otherwise runs the word it fetches, or raises. -/
theorem cycle_running {s : State} (hf : s.fault = none) (hw : s.wait = none) :
    cycle s = if s.pc.toNat ≤ Config.lastFetch then runWord (s.mem.wordAt s.pc.toNat) s
      else raise (.outOfBoundsAccess s.pc.toNat) none s := by
  by_cases h : s.pc.toNat ≤ Config.lastFetch
  · simp only [cycle, hf, hw, Option.isSome_none, Bool.or_self, Bool.false_eq_true, if_false, fetch_of_le h, h, if_true]
  · simp only [cycle, hf, hw, Option.isSome_none, Bool.or_self, Bool.false_eq_true, if_false,
      fetch_of_gt (Nat.lt_of_not_le h), h]

/-! What the eight meanings that can raise do: the effect under its condition, the raise under the other. -/

theorem execRet_of_pos {s : State} (h : 0 < s.sp.val) :
    execRet s = .next (s.popped.complete (s.stack[s.sp.val - 1]'(by omega))) := by
  simp only [execRet, s.pop_of_pos h]

theorem execRet_of_zero {s : State} (h : s.sp.val = 0) : execRet s = raise .stackUnderflow (some (encode .ret)) s := by
  simp only [execRet, State.pop_eq_none.mpr h]

theorem execCall_of_lt {s : State} (nnn : BitVec 12) (h : s.sp.val < 16) :
    execCall nnn s = .next ((s.pushed (s.pc + 2) h).complete (addressOf nnn)) := by
  simp only [execCall, s.push_of_lt _ h]

theorem execCall_of_full {s : State} (nnn : BitVec 12) (h : s.sp.val = 16) :
    execCall nnn s = raise .stackOverflow (some (encode (.call nnn))) s := by
  simp only [execCall, State.push_eq_none.mpr h]

theorem execLdVxMem_inside {s : State} (x : Reg) (h : s.base + countUpTo x ≤ Config.memorySize) :
    execLdVxMem x s = .next (s.setRegs (withFirstRegs s.v (s.mem.load s.base (countUpTo x)))).fallThrough := by
  simp only [execLdVxMem, badAddress_eq_none.mpr (Or.inr h)]

theorem execLdVxMem_outside {s : State} (x : Reg) (h : Config.memorySize < s.base + countUpTo x) :
    execLdVxMem x s = raise (.outOfBoundsAccess (max s.base Config.memorySize)) (some (encode (.ldVxMem x))) s := by
  have : badAddress s.base (countUpTo x) = some (max s.base Config.memorySize) :=
    badAddress_eq_some.mpr ⟨Nat.succ_pos _, h, rfl⟩
  simp only [execLdVxMem, this]

/-- The canvas a DXYN leaves. -/
def State.drawn (s : State) (x y : Reg) (n : Fin 16) : Canvas :=
  Canvas.drawRows ⟨s.disp, false⟩ (s.mem.load s.base n.val) (s.getV x).toNat (s.getV y).toNat

theorem execDrwVxVyN_inside {s : State} (x y : Reg) (n : Fin 16) (h : n.val = 0 ∨ s.base + n.val ≤ Config.memorySize) :
    execDrwVxVyN x y n s =
      .next ((s.setDisp (s.drawn x y n).disp).setV VF (collisionFlag (s.drawn x y n).collision)).fallThrough := by
  simp only [execDrwVxVyN, badAddress_eq_none.mpr h, State.drawn]

theorem execDrwVxVyN_outside {s : State} (x y : Reg) (n : Fin 16) (h : 0 < n.val)
    (h' : Config.memorySize < s.base + n.val) :
    execDrwVxVyN x y n s =
      raise (.outOfBoundsAccess (max s.base Config.memorySize)) (some (encode (.drwVxVyN x y n))) s := by
  simp only [execDrwVxVyN, badAddress_eq_some.mpr ⟨h, h', rfl⟩]

theorem execSkpVx_of_lt {s : State} (x : Reg) (h : (s.getV x).toNat < 16) :
    execSkpVx x s = .next (s.skipIf (s.keyDown ⟨(s.getV x).toNat, h⟩)) := by
  simp only [execSkpVx, keyIndex_of_lt h]

theorem execSkpVx_of_ge {s : State} (x : Reg) (h : 15 < (s.getV x).toNat) :
    execSkpVx x s = raise (.keyIndexOutOfRange (s.getV x)) (some (encode (.skpVx x))) s := by
  simp only [execSkpVx, keyIndex_of_ge h]

theorem execSknpVx_of_lt {s : State} (x : Reg) (h : (s.getV x).toNat < 16) :
    execSknpVx x s = .next (s.skipIf (!s.keyDown ⟨(s.getV x).toNat, h⟩)) := by
  simp only [execSknpVx, keyIndex_of_lt h]

theorem execSknpVx_of_ge {s : State} (x : Reg) (h : 15 < (s.getV x).toNat) :
    execSknpVx x s = raise (.keyIndexOutOfRange (s.getV x)) (some (encode (.sknpVx x))) s := by
  simp only [execSknpVx, keyIndex_of_ge h]

/-- Every instruction answers a next state: it raises, leaving all but the latch, or it completes (or FX0A waits), leaving
the latch alone. -/
theorem exec_raises_or_keeps_latch (i : Instr) (s : State) :
    (∃ c op, exec i s = raise c op s) ∨ ∃ t, exec i s = .next t ∧ t.fault = s.fault := by
  cases i with
  | ret =>
    by_cases h : 0 < s.sp.val
    · exact .inr ⟨_, execRet_of_pos h, rfl⟩
    · exact .inl ⟨_, _, execRet_of_zero (by omega)⟩
  | call nnn =>
    by_cases h : s.sp.val < 16
    · exact .inr ⟨_, execCall_of_lt nnn h, rfl⟩
    · exact .inl ⟨_, _, execCall_of_full nnn (by omega)⟩
  | drwVxVyN x y n =>
    by_cases h : n.val = 0 ∨ s.base + n.val ≤ Config.memorySize
    · exact .inr ⟨_, execDrwVxVyN_inside x y n h, rfl⟩
    · exact .inl ⟨_, _, execDrwVxVyN_outside x y n (by omega) (by omega)⟩
  | ldBVx x =>
    by_cases h : s.base + (decimalDigits (s.getV x)).length ≤ Config.memorySize
    · exact .inr ⟨_, storeAtIndex_inside _ h, rfl⟩
    · exact .inl ⟨_, _, storeAtIndex_outside _ (Nat.succ_pos _) (by omega)⟩
  | ldMemVx x =>
    by_cases h : s.base + (s.regsUpTo x).length ≤ Config.memorySize
    · exact .inr ⟨_, storeAtIndex_inside _ h, rfl⟩
    · exact .inl ⟨_, _, storeAtIndex_outside _ (by simp) (by omega)⟩
  | ldVxMem x =>
    by_cases h : s.base + countUpTo x ≤ Config.memorySize
    · exact .inr ⟨_, execLdVxMem_inside x h, rfl⟩
    · exact .inl ⟨_, _, execLdVxMem_outside x (by omega)⟩
  | skpVx x =>
    by_cases h : (s.getV x).toNat < 16
    · exact .inr ⟨_, execSkpVx_of_lt x h, rfl⟩
    · exact .inl ⟨_, _, execSkpVx_of_ge x (by omega)⟩
  | sknpVx x =>
    by_cases h : (s.getV x).toNat < 16
    · exact .inr ⟨_, execSknpVx_of_lt x h, rfl⟩
    · exact .inl ⟨_, _, execSknpVx_of_ge x (by omega)⟩
  | cls | jp | seVxKk | sneVxKk | seVxVy | ldVxKk | addVxKk | ldVxVy | orVxVy | andVxVy | xorVxVy | addVxVy | subVxVy
  | shrVx | subnVxVy | shlVx | sneVxVy | ldINnn | jpV0Nnn | rndVxKk | ldVxDt | ldVxK | ldDtVx | ldStVx | addIVx
  | ldFVx => exact .inr ⟨_, rfl, rfl⟩

theorem exec_next (i : Instr) (s : State) : ∃ t, exec i s = .next t := by
  rcases exec_raises_or_keeps_latch i s with ⟨_, _, h⟩ | ⟨t, h, -⟩
  · exact ⟨_, h⟩
  · exact ⟨t, h⟩

theorem cycle_next (s : State) : ∃ t, cycle s = .next t := by
  by_cases h : s.fault ≠ none ∨ s.wait ≠ none
  · exact ⟨s, cycle_idle h⟩
  · simp only [not_or, not_not] at h
    rw [cycle_running h.1 h.2]
    split
    · unfold runWord
      split
      · exact exec_next _ _
      · exact ⟨_, rfl⟩
    · exact ⟨_, rfl⟩

/-- What each event can do, said once. -/
theorem applyEvent_next {e : Event} {s t : State} (h : applyEvent e s = .next t) :
    (e = .cycle ∧ cycle s = .next t) ∨ (e = .tick ∧ t = tick s) ∨ (∃ k, e = .keyPress k ∧ t = keyPress k s) ∨
    (∃ k, e = .keyRelease k ∧ t = keyRelease k s) ∨
    (∃ rom, e = .reset rom ∧ rom.length ≤ Config.maxRom ∧
      t = { State.reset with mem := Memory.fresh s.font rom, draws := s.draws, schedule := s.schedule, font := s.font }) := by
  cases e with
  | cycle => exact .inl ⟨rfl, h⟩
  | tick => cases h; exact .inr (.inl ⟨rfl, rfl⟩)
  | keyPress k => cases h; exact .inr (.inr (.inl ⟨k, rfl, rfl⟩))
  | keyRelease k => cases h; exact .inr (.inr (.inr (.inl ⟨k, rfl, rfl⟩)))
  | reset rom =>
    by_cases hr : rom.length ≤ Config.maxRom
    · simp only [applyEvent, resetSession_of_fits s hr] at h
      cases h
      exact .inr (.inr (.inr (.inr ⟨rom, rfl, hr, rfl⟩)))
    · simp only [applyEvent, resetSession_too_long s (Nat.lt_of_not_le hr)] at h
      cases h

end Sys2Proof.Machine
end

