-- ==== Sys2Proof/Laws/Display.lean ====
section
/-! SUPPORT. What drawing does to the pixels and to the collision flag: one sprite row, a list of rows, a DXYN. The columns of
a row are distinct modulo 64 and the rows of a sprite distinct modulo 32, so no draw inverts a pixel twice. -/

namespace Sys2Proof.Machine

/-- Two displays with the same pixels are equal. -/
theorem Display.ext_pixel {d e : Display} (h : ∀ row col, d.pixel row col = e.pixel row col) : d = e := by
  apply Vector.ext
  intro i hi
  apply BitVec.eq_of_getLsbD_eq
  intro j hj
  exact h ⟨i, hi⟩ ⟨j, hj⟩

/-- Some 1 bit of the byte, at one of the column offsets listed, falls on the pixel. -/
def rowCovers (b : Byte) (x y : Nat) (cs : List Nat) (row : Fin 32) (col : Fin 64) : Bool :=
  cs.any fun c => row.val == y % 32 && col.val == (x + c) % 64 && b.getLsbD (7 - c)

/-- Some 1 bit of the rows falls on the pixel. -/
def rowsCover : List Byte → Nat → Nat → Fin 32 → Fin 64 → Bool
  | [], _, _, _, _ => false
  | b :: bs, x, y, row, col => rowCovers b x y (List.range 8) row col || rowsCover bs x (y + 1) row col

/-- The canvas `e` is `cv` with the pixels under `cover` inverted, and a collision added where one of them was lit. -/
def Inverts (cv e : Canvas) (cover : Fin 32 → Fin 64 → Bool) : Prop :=
  (∀ row col, e.disp.pixel row col = (cv.disp.pixel row col ^^ cover row col)) ∧
  (e.collision = true ↔ cv.collision = true ∨ ∃ row col, cover row col = true ∧ cv.disp.pixel row col = true)

theorem inverts_nothing (cv : Canvas) : Inverts cv cv fun _ _ => false := by
  simp [Inverts]

/-- One inversion after another, where no pixel is inverted twice. -/
theorem Inverts.trans {a b c : Canvas} {p q : Fin 32 → Fin 64 → Bool} (h : Inverts a b p) (h' : Inverts b c q)
    (hd : ∀ row col, p row col = true → q row col = false) : Inverts a c fun row col => p row col || q row col := by
  refine ⟨fun row col => ?_, ?_⟩
  · rw [h'.1, h.1]
    cases hp : p row col with
    | false => simp [hp]
    | true => simp [hp, hd row col hp]
  · rw [h'.2, h.2, or_assoc]
    refine or_congr_right ⟨?_, ?_⟩
    · rintro (⟨row, col, hp, hl⟩ | ⟨row, col, hq, hl⟩)
      · exact ⟨row, col, by simp [hp], hl⟩
      · cases hp : p row col with
        | true => rw [hd row col hp] at hq; cases hq
        | false => exact ⟨row, col, by simp [hq], by simpa [h.1, hp] using hl⟩
    · rintro ⟨row, col, hpq, hl⟩
      cases hp : p row col with
      | true => exact .inl ⟨row, col, hp, hl⟩
      | false => exact .inr ⟨row, col, by simpa [hp] using hpq, by simp [h.1, hp, hl]⟩

theorem inverts_one (cv : Canvas) (y x : Nat) (p : Fin 32 → Fin 64 → Bool)
    (hp : ∀ row col, p row col = true ↔ row = wrapRow y ∧ col = wrapCol x) :
    Inverts cv (cv.invert (wrapRow y) (wrapCol x)) p := by
  refine ⟨fun row col => ?_, ?_⟩
  · simp only [Canvas.invert, Display.pixel_invert]
    by_cases h : row = wrapRow y ∧ col = wrapCol x
    · simp [if_pos h, (hp row col).mpr h]
    · have : p row col = false := by simpa using mt (hp row col).mp h
      simp [if_neg h, this]
  · simp only [Canvas.invert, Bool.or_eq_true]
    refine or_congr_right ⟨fun h => ⟨_, _, (hp _ _).mpr ⟨rfl, rfl⟩, h⟩, ?_⟩
    rintro ⟨row, col, h, hl⟩
    obtain ⟨rfl, rfl⟩ := (hp row col).mp h
    exact hl

/-- Drawing at the column offsets listed. -/
theorem inverts_columns (b : Byte) (x y : Nat) : ∀ (cs : List Nat) (cv : Canvas), (∀ c ∈ cs, c < 8) → cs.Nodup →
    Inverts cv (cs.foldl (fun cv c => if spriteBit b c then cv.invert (wrapRow y) (wrapCol (x + c)) else cv) cv)
      (rowCovers b x y cs)
  | [], cv, _, _ => inverts_nothing cv
  | c :: cs, cv, hlt, hn => by
    have hn' := List.nodup_cons.mp hn
    have rest := inverts_columns b x y cs
      (if spriteBit b c then cv.invert (wrapRow y) (wrapCol (x + c)) else cv)
      (fun d hd => hlt d (List.mem_cons_of_mem _ hd)) hn'.2
    have one : Inverts cv (if spriteBit b c then cv.invert (wrapRow y) (wrapCol (x + c)) else cv)
        fun row col => row.val == y % 32 && col.val == (x + c) % 64 && b.getLsbD (7 - c) := by
      by_cases hb : b.getLsbD (7 - c) = true
      · have hs : spriteBit b c = true := hb
        rw [if_pos hs]
        exact inverts_one cv y (x + c) _ fun row col => by simp [hb, Fin.ext_iff, wrapRow, wrapCol]
      · have hs : ¬ spriteBit b c = true := hb
        rw [if_neg hs]
        simpa [hb] using inverts_nothing cv
    refine one.trans rest fun row col h => ?_
    have hc : col.val = (x + c) % 64 := by
      simp only [Bool.and_eq_true, beq_iff_eq] at h
      exact h.1.2
    simp only [List.any_eq_false]
    intro d hd
    have := hlt d (List.mem_cons_of_mem _ hd)
    have := hlt c List.mem_cons_self
    have : d ≠ c := fun e => hn'.1 (e ▸ hd)
    have : ¬ col.val = (x + d) % 64 := by omega
    simp [this]

/-- Drawing one sprite row. -/
theorem inverts_drawRow (cv : Canvas) (b : Byte) (x y : Nat) :
    Inverts cv (cv.drawRow b x y) (rowCovers b x y (List.range 8)) :=
  inverts_columns b x y (List.range 8) cv (by simp) List.nodup_range

theorem row_of_rowCovers {b : Byte} {x y : Nat} {cs : List Nat} {row : Fin 32} {col : Fin 64}
    (h : rowCovers b x y cs row col = true) : row.val = y % 32 := by
  simp only [rowCovers, List.any_eq_true, Bool.and_eq_true, beq_iff_eq] at h
  obtain ⟨-, -, ⟨h, -⟩, -⟩ := h
  exact h

theorem row_of_rowsCover : ∀ {bs : List Byte} {x y : Nat} {row : Fin 32} {col : Fin 64},
    rowsCover bs x y row col = true → ∃ r < bs.length, row.val = (y + r) % 32
  | b :: bs, x, y, row, col, h => by
    simp only [rowsCover, Bool.or_eq_true] at h
    rcases h with h | h
    · exact ⟨0, Nat.succ_pos _, row_of_rowCovers h⟩
    · obtain ⟨r, hr, h⟩ := row_of_rowsCover h
      exact ⟨r + 1, Nat.succ_lt_succ hr, by omega⟩

/-- Drawing rows, no more of them than the display has. -/
theorem inverts_drawRows : ∀ (bs : List Byte) (cv : Canvas) (x y : Nat), bs.length ≤ 32 →
    Inverts cv (cv.drawRows bs x y) (rowsCover bs x y)
  | [], cv, _, _, _ => inverts_nothing cv
  | b :: bs, cv, x, y, hl => by
    rw [List.length_cons] at hl
    refine (inverts_drawRow cv b x y).trans (inverts_drawRows bs _ x (y + 1) (by omega)) fun row col h => ?_
    rw [Bool.eq_false_iff]
    intro h'
    have := row_of_rowCovers h
    obtain ⟨r, hr, h'⟩ := row_of_rowsCover h'
    omega

theorem rowsCover_eq_any : ∀ (bs : List Byte) (x y : Nat) (row : Fin 32) (col : Fin 64),
    rowsCover bs x y row col = (List.range bs.length).any fun r => rowCovers (bs.getD r 0) x (y + r) (List.range 8) row col
  | [], _, _, _, _ => rfl
  | b :: bs, x, y, row, col => by
    rw [rowsCover, rowsCover_eq_any bs, List.length_cons, List.range_succ_eq_map (n := bs.length), List.any_cons, List.any_map]
    simp only [Function.comp_def, List.getD_cons_zero, List.getD_cons_succ, Nat.add_zero, Nat.succ_eq_add_one, Nat.add_assoc,
      Nat.add_comm 1]

/-- The sprite of a DXYN is the rows it loads. -/
theorem spriteCovers_eq (s : State) (x y : Reg) (n : Fin 16) (row : Fin 32) (col : Fin 64) :
    spriteCovers s x y n row col =
      rowsCover (s.mem.load s.base n.val) (s.getV x).toNat (s.getV y).toNat row col := by
  rw [rowsCover_eq_any, Memory.length_load, spriteCovers, Bool.eq_iff_iff]
  simp only [List.any_eq_true, List.mem_range]
  refine exists_congr fun r => and_congr_right fun hr => ?_
  rw [List.getD, Memory.getElem_load _ _ _ r hr, Option.getD_some, rowCovers]
  simp only [List.any_eq_true, List.mem_range]

/-- What a DXYN that stays below 4096 draws: it inverts the pixels under its sprite. -/
theorem inverts_drawn (s : State) (x y : Reg) (n : Fin 16) :
    Inverts ⟨s.disp, false⟩ (s.drawn x y n) (spriteCovers s x y n) := by
  have h := inverts_drawRows (s.mem.load s.base n.val) ⟨s.disp, false⟩ (s.getV x).toNat (s.getV y).toNat
    (by rw [Memory.length_load]; omega)
  rwa [← funext fun row => funext fun col => spriteCovers_eq s x y n row col] at h

/-! The lists of parts that a frame names. -/

@[simp] theorem mem_bytesFrom {a n : Nat} {p : Part} : p ∈ bytesFrom a n ↔ ∃ k < n, p = .byte (a + k) := by
  simp [bytesFrom, eq_comm]

@[simp] theorem mem_regsTo {x : Reg} {p : Part} : p ∈ regsTo x ↔ ∃ r : Reg, r.val ≤ x.val ∧ p = .reg r := by
  simp [regsTo, eq_comm]

@[simp] theorem mem_allPixels {p : Part} : p ∈ allPixels ↔ ∃ row col, p = .pixel row col := by
  simp [allPixels, eq_comm]

end Sys2Proof.Machine
end

