-- ==== Sys2Proof/Laws/PerInstr.lean ====
section
/-! SUPPORT. The family RowMatch: the word of an instruction selects the instruction's own row of the opcode map
(spec/30_encoding.md R75). -/

namespace Sys2Proof.Laws.RowMatch

/-- The instruction's row stands in the map, and the instruction's word selects it. -/
def Statement (i : Instr) : Prop := rowOf i ∈ opcodeRows ∧ (rowOf i).selects (encode i) = true

theorem of_NNN (p : Nat) (hp : p < 16) (nnn : BitVec 12) :
    OpcodeRow.selects ⟨0xF000, BitVec.ofNat 16 (p * 4096)⟩ (packNNN (p * 4096) nnn) = true := by
  have := nnn.isLt
  exact (selects_F000 p hp _).mpr (by rw [toNat_packNNN _ _ (by omega)]; omega)

theorem of_XKK (p : Nat) (hp : p < 16) (x : Reg) (kk : Byte) :
    OpcodeRow.selects ⟨0xF000, BitVec.ofNat 16 (p * 4096)⟩ (packXKK (p * 4096) x kk) = true := by
  have := x.isLt
  have := kk.isLt
  exact (selects_F000 p hp _).mpr (by rw [toNat_packXKK _ _ _ (by omega)]; omega)

theorem of_XYN (p : Nat) (hp : p < 16) (x y n : Fin 16) :
    OpcodeRow.selects ⟨0xF00F, BitVec.ofNat 16 (p * 4096 + n.val)⟩ (packXYN (p * 4096) x y n) = true := by
  have := x.isLt
  have := y.isLt
  exact (selects_F00F p n.val hp n.isLt _).mpr (by rw [toNat_packXYN _ _ _ _ (by omega)]; omega)

theorem of_sprite (x y n : Fin 16) : OpcodeRow.selects ⟨0xF000, 0xD000⟩ (packXYN 0xD000 x y n) = true := by
  have := x.isLt
  have := y.isLt
  have := n.isLt
  exact (selects_F000 0xD (by decide) _).mpr (by rw [toNat_packXYN _ _ _ _ (by decide)]; omega)

theorem of_X (p low : Nat) (hp : p < 16) (hl : low < 256) (h : p * 4096 + low ≤ 0xF0FF) (x : Reg) :
    OpcodeRow.selects ⟨0xF0FF, BitVec.ofNat 16 (p * 4096 + low)⟩ (packX (p * 4096 + low) x) = true := by
  have := x.isLt
  exact (selects_F0FF p low hp hl _).mpr (by rw [toNat_packX _ _ h]; omega)

theorem cls : Statement .cls := ⟨by decide, by decide⟩

theorem ret : Statement .ret := ⟨by decide, by decide⟩

theorem jp (nnn : BitVec 12) : Statement (.jp nnn) :=
  ⟨by simp [rowOf, opcodeRows], of_NNN 1 (by decide) nnn⟩

theorem call (nnn : BitVec 12) : Statement (.call nnn) :=
  ⟨by simp [rowOf, opcodeRows], of_NNN 2 (by decide) nnn⟩

theorem seVxKk (x : Reg) (kk : Byte) : Statement (.seVxKk x kk) :=
  ⟨by simp [rowOf, opcodeRows], of_XKK 3 (by decide) x kk⟩

theorem sneVxKk (x : Reg) (kk : Byte) : Statement (.sneVxKk x kk) :=
  ⟨by simp [rowOf, opcodeRows], of_XKK 4 (by decide) x kk⟩

theorem seVxVy (x y : Reg) : Statement (.seVxVy x y) :=
  ⟨by simp [rowOf, opcodeRows], of_XYN 5 (by decide) x y 0⟩

theorem ldVxKk (x : Reg) (kk : Byte) : Statement (.ldVxKk x kk) :=
  ⟨by simp [rowOf, opcodeRows], of_XKK 6 (by decide) x kk⟩

theorem addVxKk (x : Reg) (kk : Byte) : Statement (.addVxKk x kk) :=
  ⟨by simp [rowOf, opcodeRows], of_XKK 7 (by decide) x kk⟩

theorem ldVxVy (x y : Reg) : Statement (.ldVxVy x y) :=
  ⟨by simp [rowOf, opcodeRows], of_XYN 8 (by decide) x y 0⟩

theorem orVxVy (x y : Reg) : Statement (.orVxVy x y) :=
  ⟨by simp [rowOf, opcodeRows], of_XYN 8 (by decide) x y 1⟩

theorem andVxVy (x y : Reg) : Statement (.andVxVy x y) :=
  ⟨by simp [rowOf, opcodeRows], of_XYN 8 (by decide) x y 2⟩

theorem xorVxVy (x y : Reg) : Statement (.xorVxVy x y) :=
  ⟨by simp [rowOf, opcodeRows], of_XYN 8 (by decide) x y 3⟩

theorem addVxVy (x y : Reg) : Statement (.addVxVy x y) :=
  ⟨by simp [rowOf, opcodeRows], of_XYN 8 (by decide) x y 4⟩

theorem subVxVy (x y : Reg) : Statement (.subVxVy x y) :=
  ⟨by simp [rowOf, opcodeRows], of_XYN 8 (by decide) x y 5⟩

theorem shrVx (x y : Reg) : Statement (.shrVx x y) :=
  ⟨by simp [rowOf, opcodeRows], of_XYN 8 (by decide) x y 6⟩

theorem subnVxVy (x y : Reg) : Statement (.subnVxVy x y) :=
  ⟨by simp [rowOf, opcodeRows], of_XYN 8 (by decide) x y 7⟩

theorem shlVx (x y : Reg) : Statement (.shlVx x y) :=
  ⟨by simp [rowOf, opcodeRows], of_XYN 8 (by decide) x y 14⟩

theorem sneVxVy (x y : Reg) : Statement (.sneVxVy x y) :=
  ⟨by simp [rowOf, opcodeRows], of_XYN 9 (by decide) x y 0⟩

theorem ldINnn (nnn : BitVec 12) : Statement (.ldINnn nnn) :=
  ⟨by simp [rowOf, opcodeRows], of_NNN 10 (by decide) nnn⟩

theorem jpV0Nnn (nnn : BitVec 12) : Statement (.jpV0Nnn nnn) :=
  ⟨by simp [rowOf, opcodeRows], of_NNN 11 (by decide) nnn⟩

theorem rndVxKk (x : Reg) (kk : Byte) : Statement (.rndVxKk x kk) :=
  ⟨by simp [rowOf, opcodeRows], of_XKK 12 (by decide) x kk⟩

theorem drwVxVyN (x y : Reg) (n : Fin 16) : Statement (.drwVxVyN x y n) :=
  ⟨by simp [rowOf, opcodeRows], of_sprite x y n⟩

theorem skpVx (x : Reg) : Statement (.skpVx x) :=
  ⟨by simp [rowOf, opcodeRows], of_X 14 0x9e (by decide) (by decide) (by decide) x⟩

theorem sknpVx (x : Reg) : Statement (.sknpVx x) :=
  ⟨by simp [rowOf, opcodeRows], of_X 14 0xa1 (by decide) (by decide) (by decide) x⟩

theorem ldVxDt (x : Reg) : Statement (.ldVxDt x) :=
  ⟨by simp [rowOf, opcodeRows], of_X 15 0x07 (by decide) (by decide) (by decide) x⟩

theorem ldVxK (x : Reg) : Statement (.ldVxK x) :=
  ⟨by simp [rowOf, opcodeRows], of_X 15 0x0a (by decide) (by decide) (by decide) x⟩

theorem ldDtVx (x : Reg) : Statement (.ldDtVx x) :=
  ⟨by simp [rowOf, opcodeRows], of_X 15 0x15 (by decide) (by decide) (by decide) x⟩

theorem ldStVx (x : Reg) : Statement (.ldStVx x) :=
  ⟨by simp [rowOf, opcodeRows], of_X 15 0x18 (by decide) (by decide) (by decide) x⟩

theorem addIVx (x : Reg) : Statement (.addIVx x) :=
  ⟨by simp [rowOf, opcodeRows], of_X 15 0x1e (by decide) (by decide) (by decide) x⟩

theorem ldFVx (x : Reg) : Statement (.ldFVx x) :=
  ⟨by simp [rowOf, opcodeRows], of_X 15 0x29 (by decide) (by decide) (by decide) x⟩

theorem ldBVx (x : Reg) : Statement (.ldBVx x) :=
  ⟨by simp [rowOf, opcodeRows], of_X 15 0x33 (by decide) (by decide) (by decide) x⟩

theorem ldMemVx (x : Reg) : Statement (.ldMemVx x) :=
  ⟨by simp [rowOf, opcodeRows], of_X 15 0x55 (by decide) (by decide) (by decide) x⟩

theorem ldVxMem (x : Reg) : Statement (.ldVxMem x) :=
  ⟨by simp [rowOf, opcodeRows], of_X 15 0x65 (by decide) (by decide) (by decide) x⟩

end Sys2Proof.Laws.RowMatch
end

