-- ==== Sys2Proof/Laws/Schedule.lean ====
section
/-! SUPPORT. No event reads or writes the schedule: an event on a state with another schedule does the same and leaves that
schedule. -/

namespace Sys2Proof.Machine

/-- The outcome with another schedule in its next state. -/
def withSchedule (sch : Schedule) : Out → Out
  | .next t => .next (t.setSchedule sch)
  | .fault r => .fault r
  | .refused r => .refused r

theorem storeAtIndex_setSchedule (op : Word) (bs : List Byte) (s : State) (sch : Schedule) :
    storeAtIndex op bs (s.setSchedule sch) = withSchedule sch (storeAtIndex op bs s) := by
  by_cases h : bs.length = 0 ∨ s.base + bs.length ≤ Config.memorySize
  · have h0 : badAddress s.base bs.length = none := badAddress_eq_none.mpr h
    have h1 : badAddress (s.setSchedule sch).base bs.length = none := h0
    simp only [storeAtIndex, h0, h1]; rfl
  · have h0 : 0 < bs.length := by omega
    have h1 : Config.memorySize < s.base + bs.length := by omega
    rw [storeAtIndex_outside op h0 h1, storeAtIndex_outside (s := s.setSchedule sch) op h0 h1]; rfl

theorem exec_setSchedule (i : Instr) (s : State) (sch : Schedule) :
    exec i (s.setSchedule sch) = withSchedule sch (exec i s) := by
  cases i with
  | ret =>
    by_cases h : 0 < s.sp.val
    · rw [exec, exec, execRet_of_pos h, execRet_of_pos (s := s.setSchedule sch) h]; rfl
    · have h0 : s.sp.val = 0 := by omega
      rw [exec, exec, execRet_of_zero h0, execRet_of_zero (s := s.setSchedule sch) h0]; rfl
  | call nnn =>
    by_cases h : s.sp.val < 16
    · rw [exec, exec, execCall_of_lt nnn h, execCall_of_lt (s := s.setSchedule sch) nnn h]; rfl
    · have h0 : s.sp.val = 16 := by omega
      rw [exec, exec, execCall_of_full nnn h0, execCall_of_full (s := s.setSchedule sch) nnn h0]; rfl
  | drwVxVyN x y n =>
    by_cases h : n.val = 0 ∨ s.base + n.val ≤ Config.memorySize
    · rw [exec, exec, execDrwVxVyN_inside x y n h, execDrwVxVyN_inside (s := s.setSchedule sch) x y n h]; rfl
    · have h0 : 0 < n.val := by omega
      have h1 : Config.memorySize < s.base + n.val := by omega
      rw [exec, exec, execDrwVxVyN_outside x y n h0 h1, execDrwVxVyN_outside (s := s.setSchedule sch) x y n h0 h1]; rfl
  | ldBVx x => exact storeAtIndex_setSchedule (encode (.ldBVx x)) (decimalDigits (s.getV x)) s sch
  | ldMemVx x => exact storeAtIndex_setSchedule (encode (.ldMemVx x)) (s.regsUpTo x) s sch
  | ldVxMem x =>
    by_cases h : s.base + countUpTo x ≤ Config.memorySize
    · rw [exec, exec, execLdVxMem_inside x h, execLdVxMem_inside (s := s.setSchedule sch) x h]; rfl
    · have h0 : Config.memorySize < s.base + countUpTo x := by omega
      rw [exec, exec, execLdVxMem_outside x h0, execLdVxMem_outside (s := s.setSchedule sch) x h0]; rfl
  | skpVx x =>
    by_cases h : (s.getV x).toNat < 16
    · rw [exec, exec, execSkpVx_of_lt x h, execSkpVx_of_lt (s := s.setSchedule sch) x h]; rfl
    · have h0 : 15 < (s.getV x).toNat := by omega
      rw [exec, exec, execSkpVx_of_ge x h0, execSkpVx_of_ge (s := s.setSchedule sch) x h0]; rfl
  | sknpVx x =>
    by_cases h : (s.getV x).toNat < 16
    · rw [exec, exec, execSknpVx_of_lt x h, execSknpVx_of_lt (s := s.setSchedule sch) x h]; rfl
    · have h0 : 15 < (s.getV x).toNat := by omega
      rw [exec, exec, execSknpVx_of_ge x h0, execSknpVx_of_ge (s := s.setSchedule sch) x h0]; rfl
  | cls | jp | seVxKk | sneVxKk | seVxVy | ldVxKk | addVxKk | ldVxVy | orVxVy | andVxVy | xorVxVy | addVxVy | subVxVy
  | shrVx | subnVxVy | shlVx | sneVxVy | ldINnn | jpV0Nnn | rndVxKk | ldVxDt | ldVxK | ldDtVx | ldStVx | addIVx
  | ldFVx => rfl

theorem cycle_setSchedule (s : State) (sch : Schedule) : cycle (s.setSchedule sch) = withSchedule sch (cycle s) := by
  by_cases h : s.fault ≠ none ∨ s.wait ≠ none
  · rw [cycle_idle h, cycle_idle (s := s.setSchedule sch) h]; rfl
  · simp only [not_or, not_not] at h
    rw [cycle_running h.1 h.2, cycle_running (s := s.setSchedule sch) h.1 h.2]
    by_cases hp : s.pc.toNat ≤ Config.lastFetch
    · rw [if_pos hp, if_pos (c := (s.setSchedule sch).pc.toNat ≤ Config.lastFetch) hp, State.setSchedule_pc,
        State.setSchedule_mem]
      unfold runWord
      split
      · exact exec_setSchedule _ _ _
      · rfl
    · rw [if_neg hp, if_neg (c := (s.setSchedule sch).pc.toNat ≤ Config.lastFetch) hp]; rfl

/-- An event does the same under every schedule, and leaves the schedule as it is. -/
theorem applyEvent_setSchedule (e : Event) (s : State) (sch : Schedule) :
    applyEvent e (s.setSchedule sch) = withSchedule sch (applyEvent e s) := by
  cases e with
  | cycle => exact cycle_setSchedule s sch
  | tick =>
    show Host.Outcome.next (tick (s.setSchedule sch)) = .next ((tick s).setSchedule sch)
    by_cases h : s.fault.isSome = true
    · rw [tick, tick, if_pos h, if_pos (c := (s.setSchedule sch).fault.isSome = true) h]
    · rw [tick, tick, if_neg h, if_neg (c := (s.setSchedule sch).fault.isSome = true) h]; rfl
  | keyPress k =>
    show Host.Outcome.next (keyPress k (s.setSchedule sch)) = .next ((keyPress k s).setSchedule sch)
    have hk : (s.setSchedule sch).keyDown k = s.keyDown k := rfl
    simp only [keyPress, State.setSchedule_fault, State.setSchedule_wait, hk]
    split
    · rfl
    · split
      · split <;> rfl
      · rfl
  | keyRelease k =>
    show Host.Outcome.next (keyRelease k (s.setSchedule sch)) = .next ((keyRelease k s).setSchedule sch)
    by_cases h : s.fault.isSome = true
    · rw [keyRelease, keyRelease, if_pos h, if_pos (c := (s.setSchedule sch).fault.isSome = true) h]
    · rw [keyRelease, keyRelease, if_neg h, if_neg (c := (s.setSchedule sch).fault.isSome = true) h]; rfl
  | reset rom =>
    by_cases hr : rom.length ≤ Config.maxRom
    · rw [applyEvent, applyEvent, resetSession_of_fits s hr, resetSession_of_fits (s.setSchedule sch) hr]; rfl
    · rw [applyEvent, applyEvent, resetSession_too_long s (by omega), resetSession_too_long (s.setSchedule sch) (by omega)]
      rfl

end Sys2Proof.Machine
end

