-- ==== Sys2Proof/Tests/Slice0.lean ====
section
/-! SUPPORT. The model's own tests. The words are written bit by bit from the encodings of spec/opcode_table.json and
spec/30_encoding.md R75; the expected results are the vectors of spec/95_test_vectors.md, each named in its comment. The
witnesses at the end meet the hypotheses of the statements of Certificates/Slice0/Obligations.lean. -/

namespace Sys2Proof.Tests

open Sys2Proof.Machine

/-! The checks of WellFormed.lean and of the decoder, each with a term it refuses. -/

theorem test_assembled_refuses_shr_with_y : (Instr.shrVx 1 2).assembled = false := by decide
theorem test_assembled_refuses_shl_with_y : (Instr.shlVx 1 2).assembled = false := by decide
theorem test_assembled_takes_shr : (Instr.shrVx 1 0).assembled = true := by decide
/-- RS3. -/
theorem test_romFits_refuses_3585 : romFits (List.replicate 3585 0) = false := by
  rw [romFits, List.length_replicate]; decide
/-- RS2. -/
theorem test_romFits_takes_3584 : romFits (List.replicate 3584 0) = true := by
  rw [romFits, List.length_replicate]; decide
theorem test_memory_refuses_unsorted : Memory.wf [(0x301, 1), (0x300, 1)] = false := by decide
theorem test_memory_refuses_reset_byte : Memory.wf [(0x000, 0xF0)] = false := by decide
theorem test_memory_refuses_4096 : Memory.wf [(0x1000, 1)] = false := by decide
/-- EN8, EN9, EN10, SK11. -/
theorem test_decode_refuses_unknown :
    [0x0000, 0x00E1, 0x00FF, 0x0123, 0x0FFF, 0x5001, 0x500F, 0x9001, 0x8008, 0x800F, 0x8AB9].all
      (fun w => decodeTableWord 16 w == none) = true ∧
    [0xE000, 0xE09F, 0xE1A0, 0xF000, 0xF056, 0xF0FF, 0xF175, 0x5341, 0x9341].all
      (fun w => decodeTableWord 16 w == none) = true := by decide
theorem test_decode_refuses_one_byte : decodeBytes [0x12] = .error .truncated := by rfl

/-! Every constructor, by a word of its row. -/

theorem test_decode_cls : decodeTableWord 16 0b0000000011100000 = some .cls := by decide
theorem test_decode_ret : decodeTableWord 16 0b0000000011101110 = some .ret := by decide
theorem test_decode_jp : decodeTableWord 16 0b0001101010111100 = some (.jp 0xABC) := by decide
theorem test_decode_call : decodeTableWord 16 0b0010001101000101 = some (.call 0x345) := by decide
theorem test_decode_seVxKk : decodeTableWord 16 0b0011001101000010 = some (.seVxKk 3 0x42) := by decide
theorem test_decode_sneVxKk : decodeTableWord 16 0b0100001101000011 = some (.sneVxKk 3 0x43) := by decide
theorem test_decode_seVxVy : decodeTableWord 16 0b0101001101000000 = some (.seVxVy 3 4) := by decide
theorem test_decode_ldVxKk : decodeTableWord 16 0b0110101000010101 = some (.ldVxKk 10 0x15) := by decide
theorem test_decode_addVxKk : decodeTableWord 16 0b0111000111111111 = some (.addVxKk 1 0xFF) := by decide
theorem test_decode_ldVxVy : decodeTableWord 16 0b1000000100100000 = some (.ldVxVy 1 2) := by decide
theorem test_decode_orVxVy : decodeTableWord 16 0b1000000100100001 = some (.orVxVy 1 2) := by decide
theorem test_decode_andVxVy : decodeTableWord 16 0b1000000100100010 = some (.andVxVy 1 2) := by decide
theorem test_decode_xorVxVy : decodeTableWord 16 0b1000000100100011 = some (.xorVxVy 1 2) := by decide
/-- EN2. -/
theorem test_decode_addVxVy : decodeTableWord 16 0b1000101010110100 = some (.addVxVy 10 11) := by decide
theorem test_decode_subVxVy : decodeTableWord 16 0b1000000100100101 = some (.subVxVy 1 2) := by decide
theorem test_decode_shrVx : decodeTableWord 16 0b1000101010110110 = some (.shrVx 10 11) := by decide
theorem test_decode_subnVxVy : decodeTableWord 16 0b1000000100100111 = some (.subnVxVy 1 2) := by decide
theorem test_decode_shlVx : decodeTableWord 16 0b1000000100101110 = some (.shlVx 1 2) := by decide
theorem test_decode_sneVxVy : decodeTableWord 16 0b1001001101010000 = some (.sneVxVy 3 5) := by decide
theorem test_decode_ldINnn : decodeTableWord 16 0b1010001100000000 = some (.ldINnn 0x300) := by decide
theorem test_decode_jpV0Nnn : decodeTableWord 16 0b1011001100000000 = some (.jpV0Nnn 0x300) := by decide
theorem test_decode_rndVxKk : decodeTableWord 16 0b1100000100001111 = some (.rndVxKk 1 0x0F) := by decide
/-- EN1. -/
theorem test_decode_drwVxVyN : decodeTableWord 16 0b1101000100101111 = some (.drwVxVyN 1 2 15) := by decide
theorem test_decode_skpVx : decodeTableWord 16 0b1110001010011110 = some (.skpVx 2) := by decide
theorem test_decode_sknpVx : decodeTableWord 16 0b1110001010100001 = some (.sknpVx 2) := by decide
theorem test_decode_ldVxDt : decodeTableWord 16 0b1111001100000111 = some (.ldVxDt 3) := by decide
theorem test_decode_ldVxK : decodeTableWord 16 0b1111010100001010 = some (.ldVxK 5) := by decide
theorem test_decode_ldDtVx : decodeTableWord 16 0b1111001100010101 = some (.ldDtVx 3) := by decide
theorem test_decode_ldStVx : decodeTableWord 16 0b1111000000011000 = some (.ldStVx 0) := by decide
theorem test_decode_addIVx : decodeTableWord 16 0b1111000100011110 = some (.addIVx 1) := by decide
theorem test_decode_ldFVx : decodeTableWord 16 0b1111000100101001 = some (.ldFVx 1) := by decide
theorem test_decode_ldBVx : decodeTableWord 16 0b1111001000110011 = some (.ldBVx 2) := by decide
theorem test_decode_ldMemVx : decodeTableWord 16 0b1111000101010101 = some (.ldMemVx 1) := by decide
theorem test_decode_ldVxMem : decodeTableWord 16 0b1111001001100101 = some (.ldVxMem 2) := by decide

/-! One step each. -/

/-- The state after a reset with V1, V2 and VF set. -/
def regs (v1 v2 vf : Byte) : State := ((State.reset.setV 1 v1).setV 2 v2).setV 15 vf

/-- The registers of the vectors of the skips: V3 = V4 = 0x42, V5 = 0x43. -/
def skips : State := ((State.reset.setV 3 0x42).setV 4 0x42).setV 5 0x43

/-- The state with bytes in memory from an address on, and that address in I. -/
def withBytes (a : Nat) (bs : List Byte) (s : State) : State :=
  (s.setMem (s.mem.store a bs)).setI (BitVec.ofNat 16 a)

/-- The state with one pixel lit. -/
def lit (row : Fin 32) (col : Fin 64) (s : State) : State := s.setDisp (s.disp.invert row col)

/-- An outcome that is a next state with the property. -/
def answers (o : Out) (p : State → Bool) : Bool :=
  match o with
  | .next t => p t
  | .fault _ => false
  | .refused _ => false

/-- The step that runs the word in the state answers a next state with the property. -/
def after (w : Nat) (s : State) (p : State → Bool) : Bool := answers (step (s.withFetchWord 16 w)) p

/-- The lit pixels, row by row. -/
def litPixels (s : State) : List (Nat × Nat) :=
  (List.finRange 32).flatMap fun r =>
    ((List.finRange 64).filter fun c => s.disp.pixel r c).map fun c => (r.val, c.val)

/-- The state ended with this latch and everything else as before the step. -/
def raised (w : Nat) (s : State) (cause : Cause) : Bool :=
  after w s fun t => decide (t = (s.withFetchWord 16 w).setFault ⟨cause, s.pc, some (BitVec.ofNat 16 w)⟩)

/-- CF1, CF3. -/
theorem test_jp : after 0x1ABC .reset (fun t => t.pc == 0xABC && t.cycles == 1) = true ∧
    after 0x1FFF .reset (fun t => t.pc == 0xFFF) = true := by decide
/-- CF4. -/
theorem test_call : after 0x2345 .reset
    (fun t => t.pc == 0x345 && t.sp == 1 && t.stack[0] == 0x202 && t.cycles == 1) = true := by decide
/-- CF6. -/
theorem test_call_overflow : raised 0x2345 { State.reset with sp := 16 } .stackOverflow = true := by decide
/-- CF8. -/
theorem test_ret : after 0x00EE { State.reset with sp := 2, stack := (State.reset.stack.set 0 0xABC).set 1 0x456 }
    (fun t => t.pc == 0x456 && t.sp == 1 && t.cycles == 1 && t.stack[1] == 0x456) = true := by decide
/-- CF7. -/
theorem test_ret_underflow : raised 0x00EE .reset .stackUnderflow = true := by decide
/-- CF9, CF10. -/
theorem test_jpV0Nnn : after 0xB300 (State.reset.setV 0 0x10) (fun t => t.pc == 0x310) = true ∧
    after 0xBFFF (State.reset.setV 0 0xFF) (fun t => t.pc == 0x10FE) = true := by decide
/-- SK1, SK2. -/
theorem test_seVxKk : after 0x3342 skips (fun t => t.pc == 0x204 && t.cycles == 1) = true ∧
    after 0x3343 skips (fun t => t.pc == 0x202) = true := by decide
/-- SK3, SK4. -/
theorem test_sneVxKk : after 0x4342 skips (fun t => t.pc == 0x202) = true ∧
    after 0x4343 skips (fun t => t.pc == 0x204) = true := by decide
/-- SK5, SK6. -/
theorem test_seVxVy : after 0x5340 skips (fun t => t.pc == 0x204) = true ∧
    after 0x5350 skips (fun t => t.pc == 0x202) = true := by decide
/-- SK8, SK9. -/
theorem test_sneVxVy : after 0x9340 skips (fun t => t.pc == 0x202) = true ∧
    after 0x9350 skips (fun t => t.pc == 0x204) = true := by decide
/-- AL1. -/
theorem test_ldVxKk : after 0x6FAB .reset (fun t => t.getV 15 == 0xAB && t.pc == 0x202) = true := by decide
/-- AL3. -/
theorem test_addVxKk : after 0x7101 (regs 0xFF 0 1) (fun t => t.getV 1 == 0 && t.getV 15 == 1) = true := by decide
/-- AL4. -/
theorem test_ldVxVy : after 0x8120 (regs 0 0x3C 0) (fun t => t.getV 1 == 0x3C && t.getV 2 == 0x3C) = true := by decide
/-- AL5. -/
theorem test_orVxVy : after 0x8121 (regs 0xF0 0x0F 0x5A) (fun t => t.getV 1 == 0xFF && t.getV 15 == 0x5A) = true := by decide
/-- AL6. -/
theorem test_andVxVy : after 0x8122 (regs 0xF0 0x3C 0x5A) (fun t => t.getV 1 == 0x30 && t.getV 15 == 0x5A) = true := by decide
/-- AL7. -/
theorem test_xorVxVy : after 0x8123 (regs 0xF0 0x3C 0x5A) (fun t => t.getV 1 == 0xCC && t.getV 15 == 0x5A) = true := by decide
/-- AL9, AL10. -/
theorem test_addVxVy : after 0x8124 (regs 0x7F 0x80 1) (fun t => t.getV 1 == 0xFF && t.getV 15 == 0) = true ∧
    after 0x8124 (regs 0x80 0x80 0) (fun t => t.getV 1 == 0 && t.getV 15 == 1) = true := by decide
/-- AF2, AF3. -/
theorem test_addVxVy_with_vf : after 0x8F14 (regs 0x20 0 0xF0) (fun t => t.getV 15 == 0x10 && t.getV 1 == 0x20) = true ∧
    after 0x81F4 (regs 0xFF 0 0x01) (fun t => t.getV 1 == 0 && t.getV 15 == 1) = true := by decide
/-- AL13, AL14. -/
theorem test_subVxVy : after 0x8125 (regs 0x05 0x03 0) (fun t => t.getV 1 == 2 && t.getV 15 == 1) = true ∧
    after 0x8125 (regs 0x07 0x07 1) (fun t => t.getV 1 == 0 && t.getV 15 == 0) = true := by decide
/-- AF4, AF5. -/
theorem test_subVxVy_with_vf : after 0x8F15 (regs 0x03 0 0x05) (fun t => t.getV 15 == 2) = true ∧
    after 0x81F5 (regs 0x05 0 0x03) (fun t => t.getV 1 == 2 && t.getV 15 == 1) = true := by decide
/-- AL18, AL19. -/
theorem test_subnVxVy : after 0x8127 (regs 0x02 0x01 1) (fun t => t.getV 1 == 0xFF && t.getV 15 == 0) = true ∧
    after 0x8127 (regs 0x03 0x0A 0) (fun t => t.getV 1 == 7 && t.getV 15 == 1) = true := by decide
/-- AF10, AF11. -/
theorem test_subnVxVy_with_vf : after 0x8F17 (regs 0x0A 0 0x03) (fun t => t.getV 15 == 7) = true ∧
    after 0x81F7 (regs 0x03 0 0x0A) (fun t => t.getV 1 == 7 && t.getV 15 == 1) = true := by decide
/-- AL21, AL22. -/
theorem test_shrVx : after 0x8126 (regs 0x05 0xAA 0) (fun t => t.getV 1 == 2 && t.getV 15 == 1 && t.getV 2 == 0xAA) = true ∧
    after 0x8126 (regs 0x80 0 1) (fun t => t.getV 1 == 0x40 && t.getV 15 == 0) = true := by decide
/-- AF7. -/
theorem test_shrVx_with_vf : after 0x8F06 (regs 0 0 0x06) (fun t => t.getV 15 == 3) = true := by decide
/-- AL25, AL26. -/
theorem test_shlVx : after 0x812E (regs 0x81 0xAA 0) (fun t => t.getV 1 == 2 && t.getV 15 == 1 && t.getV 2 == 0xAA) = true ∧
    after 0x812E (regs 0x41 0 1) (fun t => t.getV 1 == 0x82 && t.getV 15 == 0) = true := by decide
/-- AF9. -/
theorem test_shlVx_with_vf : after 0x8F0E (regs 0 0 0x81) (fun t => t.getV 15 == 2) = true := by decide
/-- AL30: whatever the byte drawn is. -/
theorem test_rndVxKk : exec (.rndVxKk 1 0x00) State.reset =
    .next { State.reset with pc := 0x202, cycles := 1, draws := 1 } := by
  simp only [exec, execRndVxKk, State.draw, BitVec.ofNat_eq_ofNat, BitVec.and_zero]; exact congrArg Host.Outcome.next (by decide)
/-- IM1, IM2. -/
theorem test_ldINnn : after 0xA300 .reset (fun t => t.i == 0x300) = true ∧
    after 0xAFFF .reset (fun t => t.i == 0xFFF) = true := by decide
/-- IM4, IM5. -/
theorem test_addIVx : after 0xF11E ((regs 1 0 0).setI 0x0FFF) (fun t => t.i == 0x1000 && t.getV 15 == 0) = true ∧
    after 0xF11E ((regs 1 0 0).setI 0xFFFF) (fun t => t.i == 0) = true := by decide
/-- IM6, IM7. -/
theorem test_ldFVx : after 0xF129 (regs 0x0A 0 0) (fun t => t.i == 0x32) = true ∧
    after 0xF129 (regs 0xFF 0 0) (fun t => t.i == 0x4FB) = true := by decide
/-- IM11. -/
theorem test_ldBVx : after 0xF233 ((regs 0 0xC7 0).setI 0xFFD)
    (fun t => t.mem.load 0xFFD 3 == [1, 9, 9] && t.i == 0xFFD) = true := by decide
/-- IM12. -/
theorem test_ldBVx_past_the_end : raised 0xF233 ((regs 0 0xC7 0).setI 0xFFE) (.outOfBoundsAccess 4096) = true := by decide
/-- IM14. -/
theorem test_ldMemVx : after 0xFF55 ((State.reset.setRegs (Vector.ofFn fun r => 0xA0 + BitVec.ofNat 8 r.val)).setI 0xFF0)
    (fun t => t.mem.peek 0xFF0 == 0xA0 && t.mem.peek 0xFFF == 0xAF && t.i == 0xFF0) = true := by decide
/-- IM16. -/
theorem test_ldMemVx_past_the_end : raised 0xF155 (State.reset.setI 0x1000) (.outOfBoundsAccess 0x1000) = true := by decide
/-- IM17. -/
theorem test_ldVxMem : after 0xF265 (withBytes 0x300 [2, 3, 4] (State.reset.setV 3 0x77))
    (fun t => t.getV 0 == 2 && t.getV 1 == 3 && t.getV 2 == 4 && t.getV 3 == 0x77 && t.i == 0x300) = true := by decide
/-- IM20. -/
theorem test_ldVxMem_past_the_end : raised 0xF065 (State.reset.setI 0xFFFF) (.outOfBoundsAccess 0xFFFF) = true := by decide
/-- DR1. -/
theorem test_cls : after 0x00E0 (lit 31 63 (lit 0 0 (regs 0 0 1)))
    (fun t => litPixels t == [] && t.getV 15 == 1 && t.pc == 0x202) = true := by decide +kernel
/-- DR5. -/
theorem test_drw_collision : after 0xD011 (lit 0 0 (withBytes 0x300 [0xC0] .reset))
    (fun t => litPixels t == [(0, 1)] && t.getV 15 == 1) = true := by decide +kernel
/-- DR8. -/
theorem test_drw_wraps : after 0xD012 (withBytes 0x300 [0xC3, 0xFF] ((State.reset.setV 0 62).setV 1 31))
    (fun t => litPixels t == [0, 1, 2, 3, 4, 5, 62, 63].map (Prod.mk 0) ++ [4, 5, 62, 63].map (Prod.mk 31) &&
      t.getV 15 == 0) = true := by decide +kernel
/-- KT1, KT4. -/
theorem test_keySkips_pressed : after 0xE29E ((regs 0 5 0).setKey 5 true) (fun t => t.pc == 0x204) = true ∧
    after 0xE2A1 ((regs 0 5 0).setKey 5 true) (fun t => t.pc == 0x202) = true := by decide
/-- KT2, KT3. -/
theorem test_keySkips_released : after 0xE29E (regs 0 5 0) (fun t => t.pc == 0x202) = true ∧
    after 0xE2A1 (regs 0 5 0) (fun t => t.pc == 0x204) = true := by decide
/-- KT5. -/
theorem test_keySkips_of_no_key : raised 0xE29E (regs 0 0x10 0) (.keyIndexOutOfRange 0x10) = true ∧
    raised 0xE2A1 (regs 0 0x10 0) (.keyIndexOutOfRange 0x10) = true := by decide
/-- KT7. -/
theorem test_ldVxDt : after 0xF307 (State.reset.setDt 0x2A) (fun t => t.getV 3 == 0x2A && t.dt == 0x2A) = true := by decide
/-- S7. -/
theorem test_ldVxK : after 0xF30A .reset
    (fun t => decide (t = (State.reset.withFetchWord 16 0xF30A).setWait (some 3)) && awaitingOut t) = true := by decide
/-- KT8. -/
theorem test_ldDtVx : after 0xF315 (State.reset.setV 3 7) (fun t => t.dt == 7 && t.st == 0) = true := by decide
/-- KT9, KT10. -/
theorem test_ldStVx : after 0xF018 (State.reset.setV 0 0x1E) (fun t => t.st == 30 && soundActive t) = true ∧
    after 0xF018 (State.reset.setSt 9) (fun t => t.st == 0 && !soundActive t) = true := by decide

/-! The Cycle's own errors, the other events, and reset. -/

/-- EN4 and EN5. -/
theorem test_fetch_at_the_end :
    after 0x6001 { State.reset with pc := 0xFFE } (fun t => t.getV 0 == 1 && t.pc == 0x1000 && t.cycles == 1) = true ∧
    answers (step { State.reset with pc := 0x1000 }) (fun t =>
      decide (faultOut t = some ⟨.outOfBoundsAccess 0x1000, 0x1000, none⟩)) = true := by decide
/-- EN7: no alignment fault. -/
theorem test_fetch_at_an_odd_address :
    after 0x6A15 { State.reset with pc := 0x201 } (fun t => t.getV 10 == 0x15 && t.pc == 0x203) = true := by decide
/-- EN8. -/
theorem test_unknown_word_raises : raised 0x0FFF .reset (.unknownOpcode 0x0FFF) = true := by decide
/-- KT12, KT11. -/
theorem test_tick : answers (applyEvent .tick (State.reset.setSt 2)) (fun t => t.st == 1 && t.dt == 0) = true ∧
    answers (applyEvent .tick (State.reset.setDt 1)) (fun t => decide (t = State.reset)) = true := by decide
/-- KT14, its third press, and KT17. -/
theorem test_keyPress : answers (applyEvent (.keyPress 4) (State.reset.setWait (some 5)))
      (fun t => t.getV 5 == 4 && t.pc == 0x202 && t.cycles == 1 && t.wait == none && t.keyDown 4) = true ∧
    answers (applyEvent (.keyPress 9) State.reset) (fun t => decide (t = State.reset.setKey 9 true)) = true := by decide
/-- KT16. -/
theorem test_keyRelease : answers (applyEvent (.keyRelease 2) (State.reset.setWait (some 1)))
    (fun t => decide (t = State.reset.setWait (some 1))) = true := by decide
/-- KT18. -/
theorem test_keyArray : answers (applyEvents (keyArrayEvents ((State.reset.keys.set 3 true).set 9 true))
      (State.reset.setWait (some 1)))
    (fun t => t.getV 1 == 3 && t.keyDown 3 && t.keyDown 9 && t.wait == none && cyclesOut t == 1 && t.pc == 0x202) = true := by
  decide
/-- RS4, RS5. -/
theorem test_reset : answers (applyEvent (.reset [0x6A, 0x15]) ((regs 1 2 3).setFault ⟨.stackOverflow, 0, none⟩))
      (fun t => decide (t = State.reset.setMem [(0x200, 0x6A), (0x201, 0x15)])) = true ∧
    answers (applyEvent (.reset [0x12]) State.reset) (fun t => t.mem.peek 0x200 == 0x12 && t.mem.peek 0x201 == 0) = true := by
  decide
/-- R170: the numbers of the causes. -/
theorem test_causeCode : [Cause.outOfBoundsAccess 0, .stackOverflow, .stackUnderflow, .unknownOpcode 0, .romTooLarge 0,
    .keyIndexOutOfRange 0].map causeCode = [1, 2, 3, 4, 5, 6] := by decide
/-- R33: the font in memory after a reset; glyph 7 as P9 has it, and glyphs A and F as the table has them. -/
theorem test_font : State.reset.mem.load 0x023 5 = [0xF0, 0x10, 0x20, 0x40, 0x40] ∧
    State.reset.mem.load 0x032 5 = [0xF0, 0x90, 0xF0, 0x90, 0xF0] ∧
    State.reset.mem.load 0x04B 6 = [0xF0, 0x80, 0xF0, 0x80, 0x80, 0] := by decide
/-- R202: a reset loads the machine's own FONTSET. -/
theorem test_reset_loads_the_font_parameter :
    answers (applyEvent (.reset [0x12]) { State.reset with font := fontset.set 79 0xAA })
      (fun t => t.mem.load 0x04E 3 == [0x80, 0xAA, 0] && t.mem.peek 0x200 == 0x12) = true := by decide

/-! Witnesses: states and operands that meet the hypotheses of the statements, at the ends of the ranges. -/

/-- The state with so many stack entries in use, each a return address 0x202. -/
def deep (n : Fin 17) : State := { State.reset with sp := n, stack := Vector.replicate 16 0x202 }

theorem witness_EncodeDecodedWordIsTheWord : decodeWord 0x8AB6 = .ok (.shrVx 10 11) := by rfl
theorem witness_FetchIsBigEndianAndBounded :
    (({ State.reset with pc := 4095 } : State).Running ∧ 4094 < (4095 : Word).toNat) ∧
    (({ State.reset with pc := 4094 } : State).Running ∧ (4094 : Word).toNat ≤ 4094) :=
  ⟨⟨⟨rfl, rfl⟩, by decide⟩, ⟨⟨rfl, rfl⟩, by decide⟩⟩
theorem witness_StepRunsTheDecodedInstruction : (State.reset.withFetchWord 16 0x6A15).Fetches ∧
    decodeBytes [(State.reset.withFetchWord 16 0x6A15).mem.peek 0x200, (State.reset.withFetchWord 16 0x6A15).mem.peek 0x201]
      = .ok (.ldVxKk 10 0x15, []) :=
  ⟨⟨⟨rfl, rfl⟩, rfl, by decide⟩, rfl⟩
theorem witness_StepTakesTheNextEvent :
    (State.reset.setSchedule (.upcoming .tick .onlyCycles)).schedule = .upcoming .tick .onlyCycles ∧
    (State.reset.setSchedule (.free 0)).schedule = .free 0 ∧ State.reset.schedule = .onlyCycles := by decide
theorem witness_StoredBytesAreFetchedNext :
    State.reset.mem.wf = true ∧ 1 ≤ (1 : Reg).val ∧
    ({ State.reset with pc := 0xFFC, i := 0xFFE } : State).base = (0xFFC : Word).toNat + 2 ∧
    ({ State.reset with pc := 0xFFC, i := 0xFFE } : State).base + (1 : Reg).val < 4096 := by decide
theorem witness_JumpSetsPc : (4095 : BitVec 12) = 0xFFF ∧ State.reset.Running := ⟨by decide, rfl, rfl⟩
theorem witness_CallPushesTheNextAddress :
    State.reset.sp.val = (0 : Fin 16).val ∧ (deep 15).sp.val = (15 : Fin 16).val := by decide
theorem witness_ReturnPopsIntoPc :
    (deep 1).sp.val = (0 : Fin 16).val + 1 ∧ (deep 16).sp.val = (15 : Fin 16).val + 1 := by decide
/-- The subroutine has moved pc and left the stack alone. -/
theorem witness_CallThenReturnContinuesAfterTheCall : ∃ t : State, (deep 15).sp.val < 16 ∧
    exec (.call 0x345) (deep 15) = .next t ∧ ({ deep 16 with pc := 0x400 } : State).sp = t.sp ∧
    ({ deep 16 with pc := 0x400 } : State).stack = t.stack :=
  ⟨_, by decide, rfl, rfl, rfl⟩
theorem witness_EndedRunsStayInPlace : (State.reset.withFetchWord 16 0x1200).Ended ∧
    (({ State.reset with pc := 0xFFE } : State).withFetchWord 16 0x1FFE).Ended :=
  ⟨⟨⟨rfl, rfl⟩, by decide, by decide⟩, ⟨⟨rfl, rfl⟩, by decide, by decide⟩⟩
theorem witness_KeySkipsTestTheNamedKey :
    (State.reset.getV 2).toNat = (0 : Key).val ∧ ((regs 0 0x0F 0).getV 2).toNat = (15 : Key).val := by decide
theorem witness_flags_where_x_is_not_vf : (1 : Reg) ≠ 15 ∧ (14 : Reg) ≠ 15 := by decide
theorem witness_DecimalDigitsAreStoredAtI :
    State.reset.mem.wf = true ∧ (State.reset.setI 0xFFD).i.toNat + 2 < 4096 := by decide
theorem witness_RegistersAreStoredAtI :
    State.reset.mem.wf = true ∧ (State.reset.setI 0xFF0).i.toNat + (15 : Reg).val < 4096 ∧ (15 : Reg).val ≤ (15 : Reg).val ∧
    (State.reset.setI 0xFFF).i.toNat + (0 : Reg).val < 4096 := by decide
theorem witness_RegistersAreLoadedFromI :
    (State.reset.setI 0xFF0).i.toNat + (15 : Reg).val < 4096 ∧ (State.reset.setI 0xFFF).i.toNat + (0 : Reg).val < 4096 := by
  decide
theorem witness_StoreThenLoadRestoresRegisters : ∃ t u : State, State.reset.mem.wf = true ∧
    (State.reset.setI 0xFF0).i.toNat + (15 : Reg).val < 4096 ∧ exec (.ldMemVx 15) (State.reset.setI 0xFF0) = .next t ∧
    u.i = (State.reset.setI 0xFF0).i ∧ u.mem = t.mem :=
  ⟨_, _, by decide, by decide, rfl, rfl, rfl⟩
/-- N = 0 at any I; the last sprite that fits; a draw that puts a pixel out, and one that puts none out. -/
theorem witness_DrawXorsTheSpriteIntoTheDisplay :
    ((0 : Fin 16).val = 0 ∨ (State.reset.setI 0xFFFF).i.toNat + (0 : Fin 16).val ≤ 4096) ∧
    ((15 : Fin 16).val = 0 ∨ (State.reset.setI 0xFF1).i.toNat + (15 : Fin 16).val ≤ 4096) ∧
    answers (exec (.drwVxVyN 0 1 1) (lit 0 0 (withBytes 0x300 [0xC0] .reset)))
      (fun t => (lit 0 0 State.reset).disp.pixel 0 0 && !t.disp.pixel 0 0) = true ∧
    answers (exec (.drwVxVyN 0 1 1) (lit 0 2 (withBytes 0x300 [0xC0] .reset)))
      (fun t => (List.finRange 32).all fun r => (List.finRange 64).all fun c =>
        !(lit 0 2 State.reset).disp.pixel r c || t.disp.pixel r c) = true := by decide +kernel
theorem witness_DrawTwiceRestoresTheDisplay : ∃ t : State, ((1 : Fin 16).val = 0 ∨ State.reset.i.toNat + (1 : Fin 16).val ≤ 4096) ∧
    exec (.drwVxVyN 0 1 1) State.reset = .next t ∧ t.disp = t.disp ∧ t.i = State.reset.i ∧ t.mem = State.reset.mem ∧
    t.getV 0 = State.reset.getV 0 ∧ t.getV 1 = State.reset.getV 1 ∧
    spriteCovers State.reset 0 1 1 0 0 = true ∧ State.reset.disp.pixel 0 0 = false :=
  ⟨_, by decide, rfl, rfl, rfl, rfl, rfl, rfl, by decide, by decide⟩
theorem witness_WaitForKeyCompletesAtAKeyPress : State.reset.Running ∧ State.reset.keyDown 15 = false ∧
    ∃ t, exec (.ldVxK 3) State.reset = .next t := ⟨⟨rfl, rfl⟩, by decide, _, rfl⟩
theorem witness_KeyPressResolvesAWait : (State.reset.setWait (some 15)).fault = none ∧
    (State.reset.setWait (some 15)).wait = some 15 ∧ (State.reset.setWait (some 15)).keyDown 0 = false := by decide
theorem witness_OtherKeyEventsChangeOnlyTheKey : State.reset.fault = none ∧ State.reset.wait = none ∧
    ((State.reset.setWait (some 5)).setKey 4 true).fault = none ∧ ((State.reset.setWait (some 5)).setKey 4 true).wait ≠ none ∧
    ((State.reset.setWait (some 5)).setKey 4 true).keyDown 4 = true := by decide
/-- No wait; a wait that key 3 resolves, not key 9; a wait that keys held down leave pending. -/
theorem witness_KeyArrayDeliversEveryKey : State.reset.fault = none ∧ State.reset.wait = none ∧
    (State.reset.setWait (some 1)).wait = some 1 ∧
    (((State.reset.keys.set 3 true).set 9 true)[(3 : Key).val] = true ∧ (State.reset.setWait (some 1)).keyDown 3 = false ∧
      ∀ j : Key, j.val < (3 : Key).val → ((State.reset.keys.set 3 true).set 9 true)[j.val] = true →
        (State.reset.setWait (some 1)).keyDown j = true) ∧
    (∀ k : Key, (State.reset.keys.set 4 true)[k.val] = true → (State.reset.setKey 4 true).keyDown k = true) := by decide
theorem witness_TicksCountBothTimersDown : (State.reset.setDt 255).fault = none := by decide
theorem witness_TicksCommuteWithOtherInstructions : ∃ t : State, (State.reset.setDt 1).fault = none ∧
    (∀ x, Instr.cls ≠ .ldVxDt x ∧ Instr.cls ≠ .ldDtVx x ∧ Instr.cls ≠ .ldStVx x) ∧
    exec .cls (State.reset.setDt 1) = .next t ∧ t.fault = none := ⟨_, by decide, by decide, rfl, rfl⟩
theorem witness_RaisingInstructionsLeaveOnlyTheLatch : State.reset.sp.val = 0 ∧ (deep 16).sp.val = 16 ∧
    (0 < (1 : Fin 16).val ∧ 4096 < (State.reset.setI 0x1000).i.toNat + (1 : Fin 16).val) ∧
    (0 < (15 : Fin 16).val ∧ 4096 < (State.reset.setI 0xFF2).i.toNat + (15 : Fin 16).val) ∧
    4096 ≤ (State.reset.setI 0xFFE).i.toNat + 2 ∧
    4096 ≤ (State.reset.setI 0x1000).i.toNat + (0 : Reg).val ∧ 4096 ≤ (State.reset.setI 0xFF1).i.toNat + (15 : Reg).val ∧
    15 < ((regs 0 0x10 0).getV 2).toNat := by decide
theorem witness_StackErrorsLeaveThePcAndTheStack : (deep 16).sp.val = 16 ∧ (deep 0).sp.val = 0 := by decide
theorem witness_UnknownWordRaises : State.reset.Running ∧ State.reset.pc.toNat ≤ 4094 ∧
    (∀ r ∈ opcodeRows, r.selects (State.reset.mem.wordAt State.reset.pc.toNat) = false) ∧
    ({ State.reset with pc := 4094 } : State).Running ∧
    (∀ r ∈ opcodeRows, r.selects (State.reset.mem.wordAt 4094) = false) :=
  ⟨⟨rfl, rfl⟩, by decide, by decide, ⟨rfl, rfl⟩, by decide⟩
/-- An unknown word, and a fetch past the last fetchable address. -/
theorem witness_FaultingCycleIsPrecise :
    (∃ t r, State.reset.fault = none ∧ cycle State.reset = .next t ∧ t.fault = some r ∧ State.reset.pc.toNat ≤ 4094) ∧
    (∃ t r, ({ State.reset with pc := 4095 } : State).fault = none ∧ cycle { State.reset with pc := 4095 } = .next t ∧
      t.fault = some r ∧ ¬ (4095 : Word).toNat ≤ 4094) :=
  ⟨⟨_, _, rfl, rfl, rfl, by decide⟩, ⟨_, _, rfl, rfl, rfl, by decide⟩⟩
/-- KT20. -/
theorem witness_TerminatedSessionIsInert : (State.reset.setFault ⟨.stackUnderflow, 0x200, some 0x00EE⟩).fault ≠ none ∧
    ∀ e ∈ [Event.tick, .cycle, .keyPress 1, .keyRelease 1], ∀ rom, e ≠ .reset rom := by
  refine ⟨by decide, fun e he rom => ?_⟩
  simp only [List.mem_cons, List.not_mem_nil, or_false] at he
  rcases he with rfl | rfl | rfl | rfl <;> simp
theorem witness_CyclesWhileWaitingChangeNothing : (State.reset.setWait (some 3)).wait ≠ none := by decide
/-- Both ends of a step: a next state, and the reset that creates no session. -/
theorem witness_StepStopsOnlyOnAnOversizedRom : (∃ t, step State.reset = .next t) ∧
    step { State.reset with schedule := .upcoming (.reset (List.replicate 3585 0)) .onlyCycles } = .fault (.noSession (.romTooLarge 3585)) := by
  refine ⟨⟨_, rfl⟩, ?_⟩
  have := resetSession_too_long (rom := List.replicate 3585 0) State.reset (by rw [List.length_replicate]; decide)
  rw [List.length_replicate] at this
  exact this
/-- RS2, RS3. -/
theorem witness_ResetLoadsTheRomAt0x200 : (List.replicate 3584 (0xAB : Byte)).length ≤ 3584 ∧
    3583 < (List.replicate 3584 (0xAB : Byte)).length ∧ 3584 < (List.replicate 3585 (0 : Byte)).length := by
  simp only [List.length_replicate]; decide
theorem witness_ResetStartsAFreshSession : ([] : List Byte).length ≤ 3584 ∧ ([0x12] : List Byte).length ≤ 3584 := by decide
/-- A state inside a subroutine, with an FX0A pending at pc. -/
def waiting : State := ((deep 1).withFetchWord 16 0xF30A).setWait (some 3)
theorem witness_EveryStepKeepsTheInvariant : waiting.Inv ∧ ∃ t, step waiting = .next t := by
  refine ⟨⟨by decide, by decide, by decide, fun _ => by decide, fun r h => ?_⟩, _, rfl⟩
  exact absurd (h.symm.trans (show waiting.fault = none from rfl)) (Option.some_ne_none r)
theorem witness_EveryStepKeepsAWaitAtItsInstruction : waiting.WaitsAtItsInstruction ∧ waiting.wait = some 3 ∧
    ∃ t, step waiting = .next t := by
  refine ⟨fun x h => ?_, rfl, _, rfl⟩
  obtain rfl : (3 : Reg) = x := Option.some.inj h
  exact ⟨by decide, by decide⟩
/-- A wait that begins, one that a key press ends, and one that a reset ends. -/
theorem witness_OnlyFx0aWaitsAndOnlyAKeyEdgeResolves :
    (∃ t, step (State.reset.withFetchWord 16 0xF30A) = .next t ∧ t.wait = some 3) ∧
    (∃ t, step { waiting with schedule := .upcoming (.keyPress 7) .onlyCycles } = .next t ∧ t.wait = none) ∧
    (∃ t, step { waiting with schedule := .upcoming (.reset [0x12]) .onlyCycles } = .next t ∧ t.wait = none) :=
  ⟨⟨_, rfl, rfl⟩, ⟨_, rfl, rfl⟩, ⟨_, rfl, rfl⟩⟩
/-- Both cases: an instruction that raises, and one that completes. -/
theorem witness_EveryInstructionWritesOnlyItsParts : State.reset.mem.wf = true ∧
    (∃ t, exec .ret State.reset = .next t ∧ t.fault ≠ none) ∧ (∃ t, exec (.ldMemVx 15) State.reset = .next t ∧ t.fault = none) :=
  ⟨by decide, ⟨_, rfl, by decide⟩, ⟨_, rfl, rfl⟩⟩
theorem witness_CompletedInstructionsCountOneCycle : State.reset.fault = none ∧
    (∃ t, exec .cls State.reset = .next t ∧ t.fault = none) ∧ (∃ t, exec .ret State.reset = .next t ∧ t.fault ≠ none) :=
  ⟨rfl, ⟨_, rfl, rfl⟩, ⟨_, rfl, by decide⟩⟩
theorem witness_CyclesCounterIsNeverRead : ∀ rom, Event.cycle ≠ .reset rom := fun _ => by simp
theorem witness_DeadStackEntriesAreUnobservable : SameButDeadEntries (deep 1) { deep 1 with stack := (deep 1).stack.set 1 0xABC } ∧
    ∃ t, step (deep 1) = .next t :=
  ⟨⟨rfl, by decide⟩, _, rfl⟩

end Sys2Proof.Tests
end

section
/-! The default font: FONTSET as the list of its bytes, and the memory of a session that starts with it and no ROM (R33, R41). -/

namespace Sys2Proof.Machine

theorem fontset_getElem (j : Nat) (h : j < 80) : fontset[j] = resetByte j := by
  rw [fontset, Vector.getElem_ofFn, resetByte]

theorem fontset_toList : fontset.toList = fontBytes := by
  have hlen : fontBytes.length = 80 := rfl
  refine List.ext_getElem (by rw [Vector.length_toList, hlen]) fun j hj hb => ?_
  rw [Vector.getElem_toList, fontset_getElem, resetByte, List.getD_eq_getElem _ _ hb]

/-- Laying the default font over the reset contents changes no byte, and a canonical memory that changes none lists none. -/
theorem Memory.fresh_fontset_nil : Memory.fresh fontset [] = [] := by
  have hrom : ([] : List Byte).length ≤ Config.maxRom := Nat.zero_le _
  refine Memory.eq_of_peek (Memory.wf_fresh hrom) rfl fun a => ?_
  rw [Memory.peek_fresh a hrom, Memory.peek_nil]
  by_cases ha : a < 80
  · rw [if_pos ha, fontset_toList, resetByte]
  · rw [if_neg ha, resetByte_of_ge (Nat.le_of_not_lt ha), if_neg (by simp)]

theorem applyEvent_reset_nil : applyEvent (.reset []) State.reset = .next State.reset := by
  have hmem : Memory.fresh State.reset.font [] = State.reset.mem := Memory.fresh_fontset_nil
  rw [applyEvent, resetSession_of_fits _ (Nat.zero_le _), hmem]

/-- Settles O59: memory lists nothing right after reset, so every byte reads as `resetByte`, which is the table of R33 and then
0; and the memory of a fresh session with the default font lists nothing either. -/
theorem resetStateHoldsTheDefaultFont : Obligations.ResetStateHoldsTheDefaultFont := by
  refine ⟨?table, ?font, ?zero, applyEvent_reset_nil⟩
  case table => exact fontset_toList
  case font => exact fun j => (fontset_getElem j.val j.isLt).symm
  case zero => exact fun a ha _ => resetByte_of_ge ha

end Sys2Proof.Machine
end

section
/-! The Cycle's fetch (R92), and runs of steps as sequences of events (R90, R182; log 2). -/

namespace Sys2Proof.Machine

/-- Settles O6: a running Cycle is decided by the one comparison of pc with the last fetchable address, and the word at pc
has the byte there as its more significant one. -/
theorem fetchIsBigEndianAndBounded : Obligations.FetchIsBigEndianAndBounded := by
  rintro s ⟨hfault, hwait⟩
  have hcycle := cycle_running hfault hwait
  refine ⟨fun hpc => ?above, fun hpc => ⟨s.mem.wordAt s.pc.toNat, ?word, fetch_of_le hpc, ?runs⟩⟩
  case above => exact hcycle.trans (if_neg (Nat.not_le.mpr hpc))
  case word => exact toNat_wordOfBytes _ _
  case runs => exact hcycle.trans (if_pos hpc)

/-- A step of a state with the schedule named: its first event, with the rest still to come. -/
theorem step_setSchedule (s : State) (sch : Schedule) :
    step (s.setSchedule sch) = applyEvent sch.first (s.setSchedule sch.rest) := rfl

theorem State.setSchedule_self {s : State} {sch : Schedule} (h : s.schedule = sch) : s.setSchedule sch = s := by
  subst h
  rfl

/-- Settles O8: the state is the one with its own schedule, whose first event and rest each form of schedule gives. -/
theorem stepTakesTheNextEvent : Obligations.StepTakesTheNextEvent := by
  intro s e others n
  have hstep {sch : Schedule} (h : s.schedule = sch) : step s = applyEvent sch.first (s.setSchedule sch.rest) := by
    rw [← step_setSchedule, State.setSchedule_self h]
  refine ⟨fun h => hstep h, fun h => hstep h, fun h => ?_⟩
  calc step s = cycle (s.setSchedule .onlyCycles) := hstep h
    _ = cycle s := by rw [State.setSchedule_self h]

/-- The first so many events of a schedule. -/
def Schedule.take : Nat → Schedule → List Event
  | 0, _ => []
  | k + 1, sch => sch.first :: sch.rest.take k

/-- The schedule after so many events. -/
def Schedule.drop : Nat → Schedule → Schedule
  | 0, sch => sch
  | k + 1, sch => sch.rest.drop k

/-- A run of k steps is the first k events of the schedule, since no event reads or writes the schedule. -/
theorem steps_setSchedule (k : Nat) (s : State) (sch : Schedule) :
    steps k (s.setSchedule sch) = applyEvents (sch.take k) (s.setSchedule (sch.drop k)) := by
  induction k generalizing s sch with
  | zero => rfl
  | succ k ih =>
    rw [steps, step_setSchedule, Schedule.take, Schedule.drop, applyEvents, applyEvent_setSchedule, applyEvent_setSchedule]
    cases applyEvent sch.first s with
    | next t => exact ih t sch.rest
    | fault r => rfl
    | refused r => rfl

theorem Schedule.take_after (later : Schedule) (es : List Event) : (later.after es).take es.length = es := by
  induction es with
  | nil => rfl
  | cons e es ih => exact congrArg (e :: ·) ih

theorem Schedule.drop_after (later : Schedule) (es : List Event) : (later.after es).drop es.length = later := by
  induction es with
  | nil => rfl
  | cons e es ih => exact ih

theorem Schedule.take_free (n k : Nat) : (Schedule.free n).take k = (List.range' n k).map Config.surroundings := by
  induction k generalizing n with
  | zero => rfl
  | succ k ih => exact congrArg (Config.surroundings n :: ·) (ih (n + 1))

theorem Schedule.drop_free (n k : Nat) : (Schedule.free n).drop k = .free (n + k) := by
  induction k generalizing n with
  | zero => rfl
  | succ k ih => rw [Schedule.drop, Schedule.rest, ih, Nat.succ_add_eq_add_succ]

/-- Settles O58: both parts are `steps_setSchedule`, for a schedule that begins with the given events and for the
surroundings' endless one. -/
theorem everySequenceOfEventsIsARun : Obligations.EverySequenceOfEventsIsARun := by
  refine ⟨fun es later s => ?finite, fun n k s => ?endless⟩
  case finite => rw [steps_setSchedule, Schedule.take_after, Schedule.drop_after]
  case endless => rw [steps_setSchedule, Schedule.take_free, Schedule.drop_free]

end Sys2Proof.Machine
end

section
/-! The end of an instruction as a frame (R93, R96), and the jump (R101). -/

namespace Sys2Proof.Machine

theorem OnlyChanges.refl (s : State) : OnlyChanges [] s s := by
  intro p _
  cases p <;> rfl

/-- Completing an instruction adds pc and the counter to the parts its effect has changed. -/
theorem OnlyChanges.complete {parts : List Part} {s t : State} (h : OnlyChanges parts s t) (w : Word) :
    OnlyChanges (parts ++ pcAndCycles) s (t.complete w) := by
  intro p hp
  obtain ⟨hparts, hends⟩ : p ∉ parts ∧ p ∉ pcAndCycles := by simpa using hp
  have hsame : p.same s t := h p hparts
  cases p with
  | pc => simp [pcAndCycles] at hends
  | cycles => simp [pcAndCycles] at hends
  | _ => exact hsame

/-- Completing an instruction neither ends the session nor starts a wait. -/
theorem State.Running.complete {s : State} (h : s.Running) (w : Word) : (s.complete w).Running := h

theorem toNat_addressOf (nnn : BitVec 12) : (addressOf nnn).toNat = nnn.toNat :=
  BitVec.toNat_setWidth_of_le (by decide)

theorem exec_jp (nnn : BitVec 12) (s : State) : exec (.jp nnn) s = .next (s.complete (addressOf nnn)) := rfl

/-- A running Cycle at the target 0xFFF raises at its fetch: the second byte of a word there would lie past memory (R92, R101). -/
theorem cycle_complete_addressOf_FFF {s : State} (h : s.Running) :
    cycle (s.complete (addressOf 0xFFF)) = raise (.outOfBoundsAccess 0xFFF) none (s.complete (addressOf 0xFFF)) := by
  have hpc : (addressOf 0xFFF).toNat = 0xFFF := toNat_addressOf 0xFFF
  obtain ⟨hraise, -⟩ := fetchIsBigEndianAndBounded _ (h.complete (addressOf 0xFFF))
  rw [State.complete_pc, hpc] at hraise
  exact hraise (by decide)

/-- Settles O10: the meaning of 1NNN only completes with the target as the next pc, which is never checked, so that 0xFFF comes
to the next fetch. -/
theorem jumpSetsPc : Obligations.JumpSetsPc := by
  intro nnn s
  refine ⟨s.complete (addressOf nnn), exec_jp nnn s, ?pc, s.complete_cycles _, ?frame, ?fault⟩
  case pc => exact toNat_addressOf nnn
  case frame => exact (OnlyChanges.refl s).complete _
  case fault =>
    rintro rfl hrun
    exact cycle_complete_addressOf_FFF hrun

end Sys2Proof.Machine
end

section
/-! The conditional skips (spec/42_skips.md): the next pc and the frame of a skip, whatever its condition, and the comparisons
of R110 to R113. -/

namespace Sys2Proof.Machine

theorem exec_seVxKk (x : Reg) (kk : Byte) (s : State) :
    exec (.seVxKk x kk) s = .next (s.skipIf (s.getV x == kk)) := rfl

theorem exec_sneVxKk (x : Reg) (kk : Byte) (s : State) :
    exec (.sneVxKk x kk) s = .next (s.skipIf (s.getV x != kk)) := rfl

theorem exec_seVxVy (x y : Reg) (s : State) :
    exec (.seVxVy x y) s = .next (s.skipIf (s.getV x == s.getV y)) := rfl

theorem exec_sneVxVy (x y : Reg) (s : State) :
    exec (.sneVxVy x y) s = .next (s.skipIf (s.getV x != s.getV y)) := rfl

/-- A skip is the completion of no effect, with one of two words as the next pc. -/
theorem OnlyChanges.skipIf (s : State) (c : Bool) : OnlyChanges pcAndCycles s (s.skipIf c) :=
  (OnlyChanges.refl s).complete _

/-- An instruction that answers a skip on `c` moves pc by 4 or by 2 as the condition `P` that `c` decides holds or not. -/
theorem exec_moves_pc_of_skipIf {i : Instr} {s : State} {c : Bool} {P : Prop} [Decidable P]
    (hexec : exec i s = .next (s.skipIf c)) (hc : c = true ↔ P) :
    ∃ t, exec i s = .next t ∧ t.pc = (if P then s.pc + 4 else s.pc + 2) ∧ t.cycles = s.cycles + 1 ∧
      OnlyChanges pcAndCycles s t := by
  have hpc : (s.skipIf c).pc = if P then s.pc + 4 else s.pc + 2 :=
    (s.skipIf_pc c).trans (if_congr hc rfl rfl)
  exact ⟨s.skipIf c, hexec, hpc, s.skipIf_cycles c, .skipIf s c⟩

theorem byte_beq_iff_toNat_eq (a b : Byte) : (a == b) = true ↔ a.toNat = b.toNat :=
  beq_iff_eq.trans BitVec.toNat_inj.symm

theorem byte_bne_iff_toNat_ne (a b : Byte) : (a != b) = true ↔ a.toNat ≠ b.toNat :=
  bne_iff_ne.trans (not_congr BitVec.toNat_inj.symm)

/-- Settles O16: each of the four meanings is a skip, on the equality or the inequality of two bytes, which are equal just when
their unsigned values are. -/
theorem registerSkipsMovePcByFourOrTwo : Obligations.RegisterSkipsMovePcByFourOrTwo := by
  intro x y kk s
  refine ⟨?seVxKk, ?sneVxKk, ?seVxVy, ?sneVxVy⟩
  case seVxKk => exact exec_moves_pc_of_skipIf (exec_seVxKk x kk s) (byte_beq_iff_toNat_eq _ _)
  case sneVxKk => exact exec_moves_pc_of_skipIf (exec_sneVxKk x kk s) (byte_bne_iff_toNat_ne _ _)
  case seVxVy => exact exec_moves_pc_of_skipIf (exec_seVxVy x y s) (byte_beq_iff_toNat_eq _ _)
  case sneVxVy => exact exec_moves_pc_of_skipIf (exec_sneVxVy x y s) (byte_bne_iff_toNat_ne _ _)

end Sys2Proof.Machine
end

section
/-! Writes of one general register that set no flag (spec/43_alu.md): the frame of such a write, what an instruction does that
writes one register and falls through, and 6XKK, 7XKK and 8XY0 (R120 to R122). -/

namespace Sys2Proof.Machine

theorem OnlyChanges.setV (s : State) (x : Reg) (b : Byte) : OnlyChanges [.reg x] s (s.setV x b) := by
  intro p hp
  cases p with
  | reg r =>
    have hr : r ≠ x := by simpa using hp
    exact s.getV_setV_other b hr
  | _ => rfl

/-- An instruction that answers the write of one register and falls through writes that register and nothing else besides pc
and the counter. -/
theorem exec_writes_one_of_setV {i : Instr} {s : State} {x : Reg} {b : Byte}
    (hexec : exec i s = .next (s.setV x b).fallThrough) :
    ∃ t, exec i s = .next t ∧ t.getV x = b ∧ t.pc = s.pc + 2 ∧ t.cycles = s.cycles + 1 ∧
      OnlyChanges (.reg x :: pcAndCycles) s t := by
  refine ⟨(s.setV x b).fallThrough, hexec, ?value, State.fallThrough_pc _, State.fallThrough_cycles _, ?frame⟩
  case value => exact s.getV_setV_same x b
  case frame => exact (OnlyChanges.setV s x b).complete _

theorem exec_ldVxKk (x : Reg) (kk : Byte) (s : State) :
    exec (.ldVxKk x kk) s = .next (s.setV x kk).fallThrough := rfl

theorem exec_addVxKk (x : Reg) (kk : Byte) (s : State) :
    exec (.addVxKk x kk) s = .next (s.setV x (s.getV x + kk)).fallThrough := rfl

theorem exec_ldVxVy (x y : Reg) (s : State) :
    exec (.ldVxVy x y) s = .next (s.setV x (s.getV y)).fallThrough := rfl

/-- Settles O18: each of the three meanings is the write of Vx alone, and the sum of 7XKK, taken in eight bits, is the sum of
the unsigned values modulo 256. -/
theorem loadAddAndCopyWriteOnlyVx : Obligations.LoadAddAndCopyWriteOnlyVx := by
  intro x y kk s
  refine ⟨?load, ?add, ?copy⟩
  case load => exact exec_writes_one_of_setV (exec_ldVxKk x kk s)
  case add =>
    obtain ⟨t, hexec, hvalue, hrest⟩ := exec_writes_one_of_setV (exec_addVxKk x kk s)
    have hsum : (t.getV x).toNat = ((s.getV x).toNat + kk.toNat) % 256 := by rw [hvalue, BitVec.toNat_add]
    exact ⟨t, hexec, hsum, hrest⟩
  case copy => exact exec_writes_one_of_setV (exec_ldVxVy x y s)

end Sys2Proof.Machine
end

section
/-! Writes of the index register (spec/44_index_memory.md): the frame of such a write, what an instruction does that writes I
and falls through, and ANNN (R140). -/

namespace Sys2Proof.Machine

theorem OnlyChanges.setI (s : State) (w : Word) : OnlyChanges [.index] s (s.setI w) := by
  intro p hp
  cases p with
  | index => simp at hp
  | _ => rfl

/-- An instruction that answers the write of I and falls through writes I and nothing else besides pc and the counter. -/
theorem exec_writes_index_of_setI {i : Instr} {s : State} {w : Word}
    (hexec : exec i s = .next (s.setI w).fallThrough) :
    ∃ t, exec i s = .next t ∧ t.i = w ∧ t.pc = s.pc + 2 ∧ t.cycles = s.cycles + 1 ∧
      OnlyChanges (.index :: pcAndCycles) s t := by
  refine ⟨(s.setI w).fallThrough, hexec, ?value, State.fallThrough_pc _, State.fallThrough_cycles _, ?frame⟩
  case value => exact s.setI_i w
  case frame => exact (OnlyChanges.setI s w).complete _

theorem exec_ldINnn (nnn : BitVec 12) (s : State) :
    exec (.ldINnn nnn) s = .next (s.setI (addressOf nnn)).fallThrough := rfl

/-- Settles O23: the meaning of ANNN is the write of I alone, and zero-extending NNN to 16 bits keeps its unsigned value. -/
theorem loadIndexTakesTheAddress : Obligations.LoadIndexTakesTheAddress := by
  intro nnn s
  obtain ⟨t, hexec, hvalue, hrest⟩ := exec_writes_index_of_setI (exec_ldINnn nnn s)
  have haddress : t.i.toNat = nnn.toNat := by rw [hvalue, toNat_addressOf]
  exact ⟨t, hexec, haddress, hrest⟩

end Sys2Proof.Machine
end

section
/-! Writes of the display (spec/45_display.md): the frame of such a write, and 00E0 (R150). -/

namespace Sys2Proof.Machine

theorem OnlyChanges.setDisp (s : State) (d : Display) : OnlyChanges allPixels s (s.setDisp d) := by
  intro p hp
  cases p with
  | pixel row col =>
    have hmem : Part.pixel row col ∈ allPixels := mem_allPixels.mpr ⟨row, col, rfl⟩
    exact absurd hmem hp
  | _ => rfl

theorem exec_cls (s : State) : exec .cls s = .next (s.setDisp Display.clear).fallThrough := rfl

/-- Settles O29: the meaning of 00E0 is the write of the clear display alone, so VF is among what stays. -/
theorem clearTurnsEveryPixelOff : Obligations.ClearTurnsEveryPixelOff := by
  intro s
  refine ⟨(s.setDisp Display.clear).fallThrough, exec_cls s, ?pixels, State.fallThrough_pc _, State.fallThrough_cycles _,
    ?frame⟩
  case pixels => exact Display.pixel_clear
  case frame => exact (OnlyChanges.setDisp s Display.clear).complete _

end Sys2Proof.Machine
end

section
/-! Writes of the timers (spec/46_input_timers.md): the frame of a write of DT and of ST, when the sound is active, and FX07,
FX15 and FX18 (R162, R164, R165). -/

namespace Sys2Proof.Machine

theorem OnlyChanges.setDt (s : State) (b : Byte) : OnlyChanges [.delay] s (s.setDt b) := by
  intro p hp
  cases p with
  | delay => simp at hp
  | _ => rfl

theorem OnlyChanges.setSt (s : State) (b : Byte) : OnlyChanges [.sound] s (s.setSt b) := by
  intro p hp
  cases p with
  | sound => simp at hp
  | _ => rfl

theorem soundActive_iff_st_ne_zero (s : State) : soundActive s = true ↔ s.st.toNat ≠ 0 :=
  decide_eq_true_iff.trans Nat.pos_iff_ne_zero

theorem exec_ldVxDt (x : Reg) (s : State) : exec (.ldVxDt x) s = .next (s.setV x s.dt).fallThrough := rfl

theorem exec_ldDtVx (x : Reg) (s : State) : exec (.ldDtVx x) s = .next (s.setDt (s.getV x)).fallThrough := rfl

theorem exec_ldStVx (x : Reg) (s : State) : exec (.ldStVx x) s = .next (s.setSt (s.getV x)).fallThrough := rfl

/-- Settles O33: FX07 is the write of Vx alone, FX15 that of DT and FX18 that of ST, from which alone `sound_active` is read. -/
theorem timerInstructionsMoveTheTimers : Obligations.TimerInstructionsMoveTheTimers := by
  intro x s
  refine ⟨?readDelay, ?writeDelay, ?writeSound⟩
  case readDelay => exact exec_writes_one_of_setV (exec_ldVxDt x s)
  case writeDelay =>
    exact ⟨(s.setDt (s.getV x)).fallThrough, exec_ldDtVx x s, s.setDt_dt _, State.fallThrough_pc _,
      State.fallThrough_cycles _, (OnlyChanges.setDt s _).complete _⟩
  case writeSound =>
    have hactive := soundActive_iff_st_ne_zero (s.setSt (s.getV x)).fallThrough
    rw [State.fallThrough_st, State.setSt_st] at hactive
    exact ⟨(s.setSt (s.getV x)).fallThrough, exec_ldStVx x s, s.setSt_st _, hactive, State.fallThrough_pc _,
      State.fallThrough_cycles _, (OnlyChanges.setSt s _).complete _⟩

end Sys2Proof.Machine
end

section
/-! The press that resolves a wait (spec/60_exceptions.md R184): the frames of a write of the key latch and of `wait`, the
frame of one write after another, and what KeyPress does then. -/

namespace Sys2Proof.Machine

theorem Part.same.trans {p : Part} {s t u : State} (hst : p.same s t) (htu : p.same t u) : p.same s u := by
  cases p <;> exact Eq.trans htu hst

theorem OnlyChanges.trans {parts parts' : List Part} {s t u : State} (hst : OnlyChanges parts s t)
    (htu : OnlyChanges parts' t u) : OnlyChanges (parts ++ parts') s u := by
  intro p hp
  obtain ⟨hparts, hparts'⟩ : p ∉ parts ∧ p ∉ parts' := by simpa using hp
  exact (hst p hparts).trans (htu p hparts')

theorem OnlyChanges.setKey (s : State) (k : Key) (d : Bool) : OnlyChanges [.key k] s (s.setKey k d) := by
  intro p hp
  cases p with
  | key j =>
    have hj : j ≠ k := by simpa using hp
    exact (s.keyDown_setKey k d j).trans (if_neg hj)
  | _ => rfl

theorem OnlyChanges.setWait (s : State) (w : Option Reg) : OnlyChanges [.wait] s (s.setWait w) := by
  intro p hp
  cases p with
  | wait => simp at hp
  | _ => rfl

/-- Resolving a wait is the write of one register, then that of `wait`, and then the end of an instruction. -/
theorem OnlyChanges.resolveWait (x : Reg) (k : Key) (s : State) :
    OnlyChanges ([.reg x, .wait] ++ pcAndCycles) s (resolveWait x k s) :=
  ((OnlyChanges.setV s x _).trans (OnlyChanges.setWait _ none)).complete _

/-- The number of a key fits a register. -/
theorem toNat_getV_resolveWait (x : Reg) (k : Key) (s : State) : ((resolveWait x k s).getV x).toNat = k.val := by
  have hk : k.val < 2 ^ 8 := Nat.lt_trans k.isLt (by decide)
  rw [getV_resolveWait, if_pos rfl, BitVec.toNat_ofNat, Nat.mod_eq_of_lt hk]

theorem keyPress_of_wait_of_up {s : State} {x : Reg} {k : Key} (hfault : s.fault = none) (hwait : s.wait = some x)
    (hup : s.keyDown k = false) : keyPress k s = resolveWait x k (s.setKey k true) := by
  simp [keyPress, hfault, hwait, hup]

/-- Settles O36: the press latches the key and then resolves the wait, and the parts these two change are those listed. -/
theorem keyPressResolvesAWait : Obligations.KeyPressResolvesAWait := by
  intro x k s hfault hwait hup
  refine ⟨resolveWait x k (s.setKey k true), ?press, ?down, toNat_getV_resolveWait x k _, resolveWait_pc x k _,
    resolveWait_cycles x k _, resolveWait_wait x k _, ?frame⟩
  case press => rw [applyEvent, keyPress_of_wait_of_up hfault hwait hup]
  case down => rw [keyDown_resolveWait, State.keyDown_setKey, if_pos rfl]
  case frame => exact (OnlyChanges.setKey s k true).trans (OnlyChanges.resolveWait x k _)

end Sys2Proof.Machine
end

section
/-! The stack errors (spec/60_exceptions.md R172, R173, R175). -/

namespace Sys2Proof.Machine

/-- An instruction that raises latches its cause, and leaves pc and the stack where they were. -/
theorem exec_keeps_pc_and_stack_of_raise {i : Instr} {s : State} {cause : Cause} {op : Option Word}
    (hexec : exec i s = raise cause op s) :
    ∃ t r, exec i s = .next t ∧ t.fault = some r ∧ r.cause = cause ∧ t.pc = s.pc ∧ t.sp = s.sp ∧ t.stack = s.stack :=
  ⟨s.setFault ⟨cause, s.pc, op⟩, ⟨cause, s.pc, op⟩, hexec, s.setFault_fault _, rfl, s.setFault_pc _, s.setFault_sp _,
    s.setFault_stack _⟩

theorem exec_call_of_full {s : State} (nnn : BitVec 12) (h : s.sp.val = 16) :
    exec (.call nnn) s = raise .stackOverflow (some (encode (.call nnn))) s := execCall_of_full nnn h

theorem exec_ret_of_empty {s : State} (h : s.sp.val = 0) :
    exec .ret s = raise .stackUnderflow (some (encode .ret)) s := execRet_of_zero h

/-- Settles O42: the call finds no free entry and the return no entry in use, so each only raises. -/
theorem stackErrorsLeaveThePcAndTheStack : Obligations.StackErrorsLeaveThePcAndTheStack := by
  intro nnn s
  refine ⟨fun hfull => ?overflow, fun hempty => ?underflow⟩
  case overflow => exact exec_keeps_pc_and_stack_of_raise (exec_call_of_full nnn hfull)
  case underflow => exact exec_keeps_pc_and_stack_of_raise (exec_ret_of_empty hempty)

end Sys2Proof.Machine
end

section
/-! A reset (spec/70_reset_and_hazards.md R200 to R202): the four ranges of a fresh session's memory, and the values that
`State.reset` gives the registers, the stack and the keys. -/

namespace Sys2Proof.Machine

theorem Memory.peek_fresh_font {font : Vector Byte 80} {rom : List Byte} (h : rom.length ≤ Config.maxRom) (j : Fin 80) :
    (Memory.fresh font rom).peek j.val = font[j.val] := by
  have hj : j.val < font.toList.length := by rw [Vector.length_toList]; exact j.isLt
  rw [Memory.peek_fresh j.val h, if_pos j.isLt, List.getD_eq_getElem _ _ hj, Vector.getElem_toList]

theorem Memory.peek_fresh_rom {font : Vector Byte 80} {rom : List Byte} (h : rom.length ≤ Config.maxRom) (j : Nat)
    (hj : j < rom.length) : (Memory.fresh font rom).peek (0x200 + j) = rom[j] := by
  have hin : 0x200 ≤ 0x200 + j ∧ 0x200 + j < 0x200 + rom.length := by omega
  rw [Memory.peek_fresh _ h, if_neg (by omega), if_pos hin, Nat.add_sub_cancel_left, List.getD_eq_getElem _ _ hj]

/-- Past the font and outside the ROM (D10, log 5). -/
theorem Memory.peek_fresh_elsewhere {font : Vector Byte 80} {rom : List Byte} (h : rom.length ≤ Config.maxRom) {a : Nat}
    (hfont : 80 ≤ a) (hrom : a < 0x200 ∨ 0x200 + rom.length ≤ a) : (Memory.fresh font rom).peek a = 0 := by
  have hout : ¬(0x200 ≤ a ∧ a < 0x200 + rom.length) := by omega
  rw [Memory.peek_fresh a h, if_neg (Nat.not_lt.mpr hfont), if_neg hout]

theorem State.getV_reset (r : Reg) : State.reset.getV r = 0 := Vector.getElem_replicate r.isLt

theorem State.stack_reset (j : Fin 16) : State.reset.stack[j.val] = 0 := Vector.getElem_replicate j.isLt

theorem State.keyDown_reset (k : Key) : State.reset.keyDown k = false := Vector.getElem_replicate k.isLt

theorem applyEvent_reset_of_fits {rom : List Byte} (s : State) (h : rom.length ≤ Config.maxRom) :
    applyEvent (.reset rom) s =
      .next { State.reset with mem := Memory.fresh s.font rom, draws := s.draws, schedule := s.schedule, font := s.font } :=
  resetSession_of_fits s h

/-- Settles O48: whether the ROM fits decides between the two answers, and in a fresh session's memory it lies at 0x200. -/
theorem resetLoadsTheRomAt0x200 : Obligations.ResetLoadsTheRomAt0x200 := by
  intro rom s
  refine ⟨fun hfits => ?fits, fun hlong => ?long⟩
  case fits => exact ⟨_, applyEvent_reset_of_fits s hfits, Memory.peek_fresh_rom hfits⟩
  case long => exact resetSession_too_long s hlong

/-- Settles O49: the answer is `State.reset` but for its memory and the model's own three fields; each byte of the memory lies
in the font, in the ROM, between the two or after both. -/
theorem resetStartsAFreshSession : Obligations.ResetStartsAFreshSession := by
  intro rom s hfits
  refine ⟨_, applyEvent_reset_of_fits s hfits, State.getV_reset, rfl, rfl, rfl, State.stack_reset, rfl, rfl,
    State.keyDown_reset, rfl, ?pixels, rfl, rfl, Memory.peek_fresh_font hfits, ?between, Memory.peek_fresh_rom hfits, ?after,
    rfl, rfl, rfl⟩
  case pixels => exact Display.pixel_clear
  case between => exact fun a hfont hrom => Memory.peek_fresh_elsewhere hfits hfont (.inl hrom)
  case after => exact fun a hrom _ => Memory.peek_fresh_elsewhere hfits (by omega) (.inr hrom)

end Sys2Proof.Machine
end

section
/-! The decoder and the encoder as inverses (spec/30_encoding.md R73, R75, R80): the fields of a word packed in each of the
four formats, and the packing of a word's own fields. -/

namespace Sys2Proof

/-! The fields of a packed word. -/

theorem fieldClass_packNNN {base : Nat} (nnn : BitVec 12) (h : base ≤ 0xF000) (h' : base % 4096 = 0) :
    fieldClass (packNNN base nnn) = base / 4096 := by
  have := nnn.isLt
  rw [fieldClass_eq, toNat_packNNN base nnn h]
  omega

theorem fieldNNN_packNNN {base : Nat} (nnn : BitVec 12) (h : base ≤ 0xF000) (h' : base % 4096 = 0) :
    fieldNNN (packNNN base nnn) = nnn := by
  have := nnn.isLt
  apply BitVec.eq_of_toNat_eq
  rw [toNat_fieldNNN, toNat_packNNN base nnn h]
  omega

theorem fieldClass_packXKK {base : Nat} (x : Reg) (kk : Byte) (h : base ≤ 0xF000) (h' : base % 4096 = 0) :
    fieldClass (packXKK base x kk) = base / 4096 := by
  have := x.isLt
  have := kk.isLt
  rw [fieldClass_eq, toNat_packXKK base x kk h]
  omega

theorem fieldX_packXKK {base : Nat} (x : Reg) (kk : Byte) (h : base ≤ 0xF000) (h' : base % 4096 = 0) :
    fieldX (packXKK base x kk) = x := by
  have := x.isLt
  have := kk.isLt
  apply Fin.ext
  rw [val_fieldX, toNat_packXKK base x kk h]
  omega

theorem fieldKK_packXKK {base : Nat} (x : Reg) (kk : Byte) (h : base ≤ 0xF000) (h' : base % 4096 = 0) :
    fieldKK (packXKK base x kk) = kk := by
  have := kk.isLt
  apply BitVec.eq_of_toNat_eq
  rw [toNat_fieldKK, toNat_packXKK base x kk h]
  omega

theorem fieldClass_packXYN {base : Nat} (x y n : Fin 16) (h : base ≤ 0xF000) (h' : base % 4096 = 0) :
    fieldClass (packXYN base x y n) = base / 4096 := by
  have := x.isLt
  have := y.isLt
  have := n.isLt
  rw [fieldClass_eq, toNat_packXYN base x y n h]
  omega

theorem fieldX_packXYN {base : Nat} (x y n : Fin 16) (h : base ≤ 0xF000) (h' : base % 4096 = 0) :
    fieldX (packXYN base x y n) = x := by
  have := x.isLt
  have := y.isLt
  have := n.isLt
  apply Fin.ext
  rw [val_fieldX, toNat_packXYN base x y n h]
  omega

theorem fieldY_packXYN {base : Nat} (x y n : Fin 16) (h : base ≤ 0xF000) (h' : base % 4096 = 0) :
    fieldY (packXYN base x y n) = y := by
  have := y.isLt
  have := n.isLt
  apply Fin.ext
  rw [val_fieldY, toNat_packXYN base x y n h]
  omega

theorem fieldN_packXYN {base : Nat} (x y n : Fin 16) (h : base ≤ 0xF000) (h' : base % 4096 = 0) :
    fieldN (packXYN base x y n) = n := by
  have := n.isLt
  apply Fin.ext
  rw [val_fieldN, toNat_packXYN base x y n h]
  omega

theorem fieldClass_packX {base : Nat} (x : Reg) (h : base ≤ 0xF0FF) (h' : base % 4096 < 256) :
    fieldClass (packX base x) = base / 4096 := by
  have := x.isLt
  rw [fieldClass_eq, toNat_packX base x h]
  omega

theorem fieldX_packX {base : Nat} (x : Reg) (h : base ≤ 0xF0FF) (h' : base % 4096 < 256) :
    fieldX (packX base x) = x := by
  have := x.isLt
  apply Fin.ext
  rw [val_fieldX, toNat_packX base x h]
  omega

theorem toNat_fieldKK_packX {base : Nat} (x : Reg) (h : base ≤ 0xF0FF) :
    (fieldKK (packX base x)).toNat = base % 256 := by
  rw [toNat_fieldKK, toNat_packX base x h]
  omega

/-- The decoder reads back what the encoder packed: the class selects the format, whose fields are those packed. -/
theorem decodeWord_encode (i : Instr) : decodeWord (encode i) = .ok i := by
  cases i with
  | cls | ret => rfl
  | jp nnn | call nnn | ldINnn nnn | jpV0Nnn nnn =>
    simp [decodeWord, encode, fieldClass_packNNN, fieldNNN_packNNN]
  | seVxKk x kk | sneVxKk x kk | ldVxKk x kk | addVxKk x kk | rndVxKk x kk =>
    simp [decodeWord, encode, fieldClass_packXKK, fieldX_packXKK, fieldKK_packXKK]
  | seVxVy x y | sneVxVy x y =>
    simp [decodeWord, encode, fieldClass_packXYN, fieldX_packXYN, fieldY_packXYN, fieldN_packXYN]
  | ldVxVy x y | orVxVy x y | andVxVy x y | xorVxVy x y | addVxVy x y | subVxVy x y | shrVx x y | subnVxVy x y | shlVx x y =>
    simp [decodeWord, decodeClass8, encode, fieldClass_packXYN, fieldX_packXYN, fieldY_packXYN, fieldN_packXYN]
  | drwVxVyN x y n =>
    simp [decodeWord, encode, fieldClass_packXYN, fieldX_packXYN, fieldY_packXYN, fieldN_packXYN]
  | skpVx x | sknpVx x =>
    simp [decodeWord, decodeClassE, encode, fieldClass_packX, fieldX_packX, toNat_fieldKK_packX]
  | ldVxDt x | ldVxK x | ldDtVx x | ldStVx x | addIVx x | ldFVx x | ldBVx x | ldMemVx x | ldVxMem x =>
    simp [decodeWord, decodeClassF, encode, fieldClass_packX, fieldX_packX, toNat_fieldKK_packX]

theorem decodeBytes_of_decodeWord {hi lo : Byte} {i : Instr} (rest : List Byte)
    (h : decodeWord (wordOfBytes hi lo) = .ok i) : decodeBytes (hi :: lo :: rest) = .ok (i, rest) := by
  simp only [decodeBytes, h]

/-- Settles O1: the two bytes make the instruction's word again, and the decoder reads the instruction back from its word. -/
theorem decodeEncodeEveryInstruction : Obligations.DecodeEncodeEveryInstruction := by
  intro i rest
  refine decodeBytes_of_decodeWord rest ?_
  rw [wordOfBytes_bytes, decodeWord_encode]

/-! Packing the fields of a word gives the word back, where the format's fixed bits are those of the word. -/

theorem packNNN_fields {op : Word} {c : Nat} (hc : fieldClass op = c) : packNNN (c * 4096) (fieldNNN op) = op := by
  rw [fieldClass_eq] at hc
  have := op.isLt
  apply BitVec.eq_of_toNat_eq
  rw [toNat_packNNN _ _ (by omega), toNat_fieldNNN]
  omega

theorem packXKK_fields {op : Word} {c : Nat} (hc : fieldClass op = c) :
    packXKK (c * 4096) (fieldX op) (fieldKK op) = op := by
  rw [fieldClass_eq] at hc
  have := op.isLt
  apply BitVec.eq_of_toNat_eq
  rw [toNat_packXKK _ _ _ (by omega), val_fieldX, toNat_fieldKK]
  omega

theorem packXYN_fields {op : Word} {c : Nat} {n : Fin 16} (hc : fieldClass op = c) (hn : (fieldN op).val = n.val) :
    packXYN (c * 4096) (fieldX op) (fieldY op) n = op := by
  rw [fieldClass_eq] at hc
  rw [val_fieldN] at hn
  have := op.isLt
  apply BitVec.eq_of_toNat_eq
  rw [toNat_packXYN _ _ _ _ (by omega), val_fieldX, val_fieldY]
  omega

theorem packX_fields {op : Word} {c low : Nat} (hc : fieldClass op = c) (hlow : (fieldKK op).toNat = low) :
    packX (c * 4096 + low) (fieldX op) = op := by
  rw [fieldClass_eq] at hc
  rw [toNat_fieldKK] at hlow
  have := op.isLt
  apply BitVec.eq_of_toNat_eq
  rw [toNat_packX _ _ (by omega), val_fieldX]
  omega

theorem encode_of_decodeClass0 {op : Word} {i : Instr} (h : decodeClass0 op = .ok i) : encode i = op := by
  unfold decodeClass0 at h
  split at h
  · cases h; exact Eq.symm ‹_›
  · split at h
    · cases h; exact Eq.symm ‹_›
    · cases h

theorem encode_of_decodeClass8 {op : Word} {i : Instr} (hc : fieldClass op = 8) (h : decodeClass8 op = .ok i) :
    encode i = op := by
  unfold decodeClass8 at h
  split at h <;> cases h <;> exact packXYN_fields hc ‹_›

theorem encode_of_decodeClassE {op : Word} {i : Instr} (hc : fieldClass op = 14) (h : decodeClassE op = .ok i) :
    encode i = op := by
  unfold decodeClassE at h
  split at h <;> cases h <;> exact packX_fields hc ‹_›

theorem encode_of_decodeClassF {op : Word} {i : Instr} (hc : fieldClass op = 15) (h : decodeClassF op = .ok i) :
    encode i = op := by
  unfold decodeClassF at h
  split at h <;> cases h <;> exact packX_fields hc ‹_›

theorem encode_of_decodeWord {op : Word} {i : Instr} (h : decodeWord op = .ok i) : encode i = op := by
  unfold decodeWord at h
  split at h
  case h_1 => exact encode_of_decodeClass0 h
  case h_2 hc | h_3 hc | h_11 hc | h_12 hc => cases h; exact packNNN_fields hc
  case h_4 hc | h_5 hc | h_7 hc | h_8 hc | h_13 hc => cases h; exact packXKK_fields hc
  case h_6 hc | h_10 hc =>
    split at h
    · cases h; exact packXYN_fields (n := 0) hc (congrArg Fin.val ‹_›)
    · cases h
  case h_9 hc => exact encode_of_decodeClass8 hc h
  case h_14 hc => cases h; exact packXYN_fields hc rfl
  case h_15 hc => exact encode_of_decodeClassE hc h
  case h_16 hc => exact encode_of_decodeClassF hc h
  case h_17 => cases h

/-- Settles O2: in each class the fields decoded, packed again, fill every bit that the class leaves open. -/
theorem encodeDecodedWordIsTheWord : Obligations.EncodeDecodedWordIsTheWord := fun _ _ => encode_of_decodeWord

theorem decodeWord_eq_ok_iff {op : Word} {i : Instr} : decodeWord op = .ok i ↔ encode i = op :=
  ⟨encode_of_decodeWord, fun h => h ▸ decodeWord_encode i⟩

end Sys2Proof
end

section
/-! The words that decode to nothing (spec/30_encoding.md R77), and the opcode map (R75): a word selects the row of the
instruction it decodes to, and an unknown word selects none. -/

namespace Sys2Proof

/-! Which words each class refuses. -/

theorem word_eq_iff_toNat_eq (op : Word) (n : Nat) (hn : n < 2 ^ 16) : op = BitVec.ofNat 16 n ↔ op.toNat = n := by
  rw [← BitVec.toNat_inj, BitVec.toNat_ofNat, Nat.mod_eq_of_lt hn]

theorem decodeClass0_eq_error {op : Word} :
    decodeClass0 op = .error (.unknownOpcode op) ↔ op.toNat ≠ 0x00E0 ∧ op.toNat ≠ 0x00EE := by
  simp only [decodeClass0, word_eq_iff_toNat_eq op _ (show 0x00E0 < 2 ^ 16 by decide),
    word_eq_iff_toNat_eq op _ (show 0x00EE < 2 ^ 16 by decide)]
  split
  · simp [*]
  · split <;> simp [*]

theorem decodeClass8_eq_error {op : Word} :
    decodeClass8 op = .error (.unknownOpcode op) ↔ op.toNat % 16 ∈ [0x8, 0x9, 0xA, 0xB, 0xC, 0xD, 0xF] := by
  have hlt := (fieldN op).isLt
  rw [← val_fieldN, decodeClass8]
  generalize (fieldN op).val = n at hlt ⊢
  split
  case h_10 =>
    simp only [true_iff, List.mem_cons, List.not_mem_nil, or_false, imp_false] at *
    omega
  all_goals simp

theorem decodeClassE_eq_error {op : Word} :
    decodeClassE op = .error (.unknownOpcode op) ↔ op.toNat % 256 ∉ [0x9E, 0xA1] := by
  rw [← toNat_fieldKK, decodeClassE]
  generalize (fieldKK op).toNat = low
  split
  case h_3 =>
    simp only [true_iff, List.mem_cons, List.not_mem_nil, or_false, imp_false] at *
    omega
  all_goals simp

theorem decodeClassF_eq_error {op : Word} :
    decodeClassF op = .error (.unknownOpcode op) ↔
      op.toNat % 256 ∉ [0x07, 0x0A, 0x15, 0x18, 0x1E, 0x29, 0x33, 0x55, 0x65] := by
  rw [← toNat_fieldKK, decodeClassF]
  generalize (fieldKK op).toNat = low
  split
  case h_10 =>
    simp only [true_iff, List.mem_cons, List.not_mem_nil, or_false, imp_false] at *
    omega
  all_goals simp

theorem fieldN_eq_zero_iff {op : Word} : fieldN op = 0 ↔ op.toNat % 16 = 0 := by
  rw [← val_fieldN, Fin.ext_iff, Fin.val_zero]

/-- Settles O4: the class of a word decides which of the six clauses can hold, and within a class the refused words are those
of the clause. -/
theorem unknownWordsAreThoseListed : Obligations.UnknownWordsAreThoseListed := by
  intro op
  have hlt : fieldClass op < 16 := by have := op.isLt; rw [fieldClass_eq]; omega
  rw [← fieldClass_eq, decodeWord]
  generalize fieldClass op = c at hlt ⊢
  split
  case h_1 => simp [decodeClass0_eq_error]
  case h_6 | h_10 => simp [fieldN_eq_zero_iff]
  case h_9 => simp [decodeClass8_eq_error]
  case h_15 => simp [decodeClassE_eq_error]
  case h_16 => simp [decodeClassF_eq_error]
  case h_17 => simp only [imp_false] at *; omega
  all_goals simp

/-- The one error that the decoder gives for a word. -/
theorem decodeWord_error_eq {op : Word} {e : DecodeError} (h : decodeWord op = .error e) : e = .unknownOpcode op := by
  unfold decodeWord at h
  split at h
  case h_1 =>
    unfold decodeClass0 at h
    split at h
    · cases h
    · split at h <;> cases h; rfl
  case h_6 | h_10 => split at h <;> cases h; rfl
  case h_9 => unfold decodeClass8 at h; split at h <;> cases h; rfl
  case h_15 => unfold decodeClassE at h; split at h <;> cases h; rfl
  case h_16 => unfold decodeClassF at h; split at h <;> cases h; rfl
  case h_17 => cases h; rfl
  all_goals cases h

theorem OpcodeRow.selects_eq_false_iff {r : OpcodeRow} {op : Word} :
    r.selects op = false ↔ (op &&& r.mask).toNat ≠ r.pattern.toNat := by
  rw [OpcodeRow.selects, beq_eq_false_iff_ne, ne_eq, ne_eq, BitVec.toNat_inj]

theorem and_FFFF (op : Word) : op &&& 0xFFFF#16 = op := BitVec.and_allOnes

/-- A word of one of the six clauses of R77 differs from every row's pattern in a bit of the row's mask. -/
theorem not_selects_of_unknown {op : Word} (h : decodeWord op = .error (.unknownOpcode op)) :
    ∀ r ∈ opcodeRows, r.selects op = false := by
  have hunknown := (unknownWordsAreThoseListed op).mp h
  simp only [opcodeRows, List.cons_append, List.nil_append, List.forall_mem_cons, List.not_mem_nil, false_imp_iff,
    implies_true, and_true, OpcodeRow.selects_eq_false_iff, BitVec.ofNat_eq_ofNat, and_classMask, and_F00F, and_F0FF,
    and_FFFF, BitVec.reduceToNat]
  have hlt := op.isLt
  generalize op.toNat = n at hunknown hlt ⊢
  simp only [List.mem_cons, List.not_mem_nil, or_false, not_or] at hunknown
  rcases hunknown with h0 | h5 | h8 | h9 | hE | hF
  all_goals omega

theorem opcodeRows_length : opcodeRows.length = 34 := rfl

/-- Two rows that one word selects agree in the bits that both masks keep. -/
theorem OpcodeRow.patterns_agree_of_selects {a b : OpcodeRow} {op : Word} (ha : a.selects op = true)
    (hb : b.selects op = true) : a.pattern &&& b.mask = b.pattern &&& a.mask := by
  rw [OpcodeRow.selects, beq_iff_eq] at ha hb
  rw [← ha, ← hb, BitVec.and_assoc, BitVec.and_assoc, BitVec.and_comm a.mask]

/-- No two rows agree in the bits that both masks keep, so no word selects both. -/
theorem opcodeRows_disjoint : opcodeRows.Pairwise fun a b => ∀ op : Word, ¬(a.selects op = true ∧ b.selects op = true) := by
  have hpatterns : opcodeRows.Pairwise fun a b => a.pattern &&& b.mask ≠ b.pattern &&& a.mask := by decide
  exact hpatterns.imp fun hne op ⟨ha, hb⟩ => hne (OpcodeRow.patterns_agree_of_selects ha hb)

/-- The word of every instruction selects the instruction's own row of the map: the family RowMatch, taken together. -/
theorem rowMatch (i : Instr) : Laws.RowMatch.Statement i := by
  cases i with
  | cls => exact Laws.RowMatch.cls
  | ret => exact Laws.RowMatch.ret
  | jp nnn => exact Laws.RowMatch.jp nnn
  | call nnn => exact Laws.RowMatch.call nnn
  | seVxKk x kk => exact Laws.RowMatch.seVxKk x kk
  | sneVxKk x kk => exact Laws.RowMatch.sneVxKk x kk
  | seVxVy x y => exact Laws.RowMatch.seVxVy x y
  | ldVxKk x kk => exact Laws.RowMatch.ldVxKk x kk
  | addVxKk x kk => exact Laws.RowMatch.addVxKk x kk
  | ldVxVy x y => exact Laws.RowMatch.ldVxVy x y
  | orVxVy x y => exact Laws.RowMatch.orVxVy x y
  | andVxVy x y => exact Laws.RowMatch.andVxVy x y
  | xorVxVy x y => exact Laws.RowMatch.xorVxVy x y
  | addVxVy x y => exact Laws.RowMatch.addVxVy x y
  | subVxVy x y => exact Laws.RowMatch.subVxVy x y
  | shrVx x y => exact Laws.RowMatch.shrVx x y
  | subnVxVy x y => exact Laws.RowMatch.subnVxVy x y
  | shlVx x y => exact Laws.RowMatch.shlVx x y
  | sneVxVy x y => exact Laws.RowMatch.sneVxVy x y
  | ldINnn nnn => exact Laws.RowMatch.ldINnn nnn
  | jpV0Nnn nnn => exact Laws.RowMatch.jpV0Nnn nnn
  | rndVxKk x kk => exact Laws.RowMatch.rndVxKk x kk
  | drwVxVyN x y n => exact Laws.RowMatch.drwVxVyN x y n
  | skpVx x => exact Laws.RowMatch.skpVx x
  | sknpVx x => exact Laws.RowMatch.sknpVx x
  | ldVxDt x => exact Laws.RowMatch.ldVxDt x
  | ldVxK x => exact Laws.RowMatch.ldVxK x
  | ldDtVx x => exact Laws.RowMatch.ldDtVx x
  | ldStVx x => exact Laws.RowMatch.ldStVx x
  | addIVx x => exact Laws.RowMatch.addIVx x
  | ldFVx x => exact Laws.RowMatch.ldFVx x
  | ldBVx x => exact Laws.RowMatch.ldBVx x
  | ldMemVx x => exact Laws.RowMatch.ldMemVx x
  | ldVxMem x => exact Laws.RowMatch.ldVxMem x

/-- Settles O3: a word that decodes is the encoding of its instruction and so selects that instruction's row; a word that
does not is unknown and selects none. -/
theorem decodeFollowsTheOpcodeMap : Obligations.DecodeFollowsTheOpcodeMap := by
  refine ⟨fun op => ?_, opcodeRows_length, opcodeRows_disjoint⟩
  cases h : decodeWord op with
  | ok i =>
    obtain ⟨hmem, hsel⟩ := rowMatch i
    exact .inl ⟨i, rfl, hmem, encode_of_decodeWord h ▸ hsel⟩
  | error e =>
    obtain rfl := decodeWord_error_eq h
    exact .inr ⟨rfl, not_selects_of_unknown h⟩

/-- A word that selects no row is unknown. -/
theorem decodeWord_of_not_selects {op : Word} (h : ∀ r ∈ opcodeRows, r.selects op = false) :
    decodeWord op = .error (.unknownOpcode op) := by
  rcases decodeFollowsTheOpcodeMap.1 op with ⟨i, -, hmem, hsel⟩ | ⟨herr, -⟩
  · exact absurd (hsel.symm.trans (h _ hmem)) (by decide)
  · exact herr

/-- Settles O5: each word is the encoding of its instruction. -/
theorem wordsFromTheTableDecode : Obligations.WordsFromTheTableDecode := by
  simp only [Obligations.WordsFromTheTableDecode, decodeWord_eq_ok_iff]
  decide

end Sys2Proof
end

section
/-! What an instruction can do, said once: it raises and records its own word, or it is FX0A and waits, or it completes after
an effect on the parts that its row names (spec/40_cycle_driver.md R94 to R97). -/

namespace Sys2Proof.Machine

/-! Frames of the remaining updates. -/

theorem OnlyChanges.mono {parts parts' : List Part} {s t : State} (h : OnlyChanges parts s t) (hsub : parts ⊆ parts') :
    OnlyChanges parts' s t :=
  fun p hp => h p fun hmem => hp (hsub hmem)

/-- A part that ends as it was need not be named. -/
theorem OnlyChanges.of_same {parts : List Part} {p : Part} {s t : State} (h : OnlyChanges (p :: parts) s t)
    (hp : p.same s t) : OnlyChanges parts s t := by
  intro q hq
  by_cases hqp : q = p
  · exact hqp ▸ hp
  · exact h q (by simp [hqp, hq])

theorem OnlyChanges.writeFlagged (s : State) (x : Reg) (flag result : Byte) :
    OnlyChanges [.reg x, .reg VF] s (s.writeFlagged x flag result) :=
  ((OnlyChanges.setV s VF flag).trans (OnlyChanges.setV _ x result)).mono (by simp)

theorem OnlyChanges.draw (s : State) : OnlyChanges [.draws] s s.draw.2 := by
  intro p hp
  cases p with
  | draws => simp at hp
  | _ => rfl

theorem OnlyChanges.popped (s : State) : OnlyChanges [.sp] s s.popped := by
  intro p hp
  cases p with
  | sp => simp at hp
  | _ => rfl

theorem OnlyChanges.pushed (s : State) (w : Word) (h : s.sp.val < 16) :
    OnlyChanges [.sp, .entry ⟨s.sp.val, h⟩] s (s.pushed w h) := by
  intro p hp
  cases p with
  | sp => simp at hp
  | entry j =>
    have hj : s.sp.val ≠ j.val := fun heq => hp (by simp [heq])
    exact Vector.getElem_set_ne h j.isLt hj
  | _ => rfl

theorem OnlyChanges.setRegs (s : State) (x : Reg) {v : Vector Byte 16}
    (h : ∀ r : Reg, x.val < r.val → v[r.val] = s.v[r.val]) : OnlyChanges (regsTo x) s (s.setRegs v) := by
  intro p hp
  cases p with
  | reg r =>
    exact h r (Nat.lt_of_not_le fun hle => hp (mem_regsTo.mpr ⟨r, hle, rfl⟩))
  | _ => rfl

/-- Loading X + 1 bytes leaves the registers above VX. -/
theorem withFirstRegs_load_of_gt (v : Vector Byte 16) (m : Memory) (a : Nat) {x r : Reg} (h : x.val < r.val) :
    (withFirstRegs v (m.load a (countUpTo x)))[r.val] = v[r.val] := by
  have hlen : (m.load a (countUpTo x)).length ≤ r.val := by rw [Memory.length_load, countUpTo]; exact h
  rw [getElem_withFirstRegs, List.getD_eq_default _ _ hlen]

theorem OnlyChanges.store {s : State} {a : Nat} {bs : List Byte} (hwf : s.mem.wf = true)
    (h : a + bs.length ≤ Config.memorySize) : OnlyChanges (bytesFrom a bs.length) s (s.setMem (s.mem.store a bs)) := by
  intro p hp
  cases p with
  | byte c =>
    have hout : ¬(a ≤ c ∧ c < a + bs.length) := fun hin =>
      hp (mem_bytesFrom.mpr ⟨c - a, by omega, by rw [Nat.add_sub_cancel' hin.1]⟩)
    exact (Memory.peek_store c hwf h).trans (if_neg hout)
  | _ => rfl

theorem OnlyChanges.drawn (s : State) (d : Display) (b : Byte) :
    OnlyChanges (.reg VF :: allPixels) s ((s.setDisp d).setV VF b) :=
  ((OnlyChanges.setDisp s d).trans (OnlyChanges.setV _ VF b)).mono (by simp)

/-- 00EE and 2NNN, the instructions that read or write the stack. -/
def NamesStack (i : Instr) : Prop := i = .ret ∨ ∃ nnn, i = .call nnn

/-- The instruction completes: `u` is the state with its effect, `w` the next pc. -/
structure Completes (i : Instr) (s u : State) (w : Word) : Prop where
  answer : exec i s = .next (u.complete w)
  notWait : ∀ x, i ≠ .ldVxK x
  fault : u.fault = s.fault
  wait : u.wait = s.wait
  cycles : u.cycles = s.cycles
  stack : NamesStack i ∨ u.sp = s.sp ∧ u.stack = s.stack
  frame : s.mem.wf = true → OnlyChanges (writesOf i s) s u

/-- How an instruction can go, for each of the 34. -/
theorem exec_cases (i : Instr) (s : State) :
    (∃ c, exec i s = raise c (some (encode i)) s) ∨
    (∃ x, i = .ldVxK x ∧ exec i s = .next (s.setWait (some x))) ∨
    ∃ u w, Completes i s u w := by
  cases i with
  | ldVxK x => exact .inr (.inl ⟨x, rfl, rfl⟩)
  | ret =>
    by_cases h : 0 < s.sp.val
    · exact .inr (.inr ⟨_, _, execRet_of_pos h, nofun, rfl, rfl, rfl, .inl (.inl rfl), fun _ => .popped s⟩)
    · exact .inl ⟨_, execRet_of_zero (by omega)⟩
  | call nnn =>
    by_cases h : s.sp.val < 16
    · refine .inr (.inr ⟨_, _, execCall_of_lt nnn h, nofun, rfl, rfl, rfl, .inl (.inr ⟨nnn, rfl⟩), fun _ => ?_⟩)
      simpa only [writesOf, dif_pos h, List.cons_append, List.nil_append] using OnlyChanges.pushed s (s.pc + 2) h
    · exact .inl ⟨_, execCall_of_full nnn (by omega)⟩
  | drwVxVyN x y n =>
    by_cases h : n.val = 0 ∨ s.base + n.val ≤ Config.memorySize
    · exact .inr (.inr ⟨_, _, execDrwVxVyN_inside x y n h, nofun, rfl, rfl, rfl, .inr ⟨rfl, rfl⟩, fun _ => .drawn s _ _⟩)
    · exact .inl ⟨_, execDrwVxVyN_outside x y n (by omega) (by omega)⟩
  | ldBVx x =>
    by_cases h : s.base + (decimalDigits (s.getV x)).length ≤ Config.memorySize
    · exact .inr (.inr ⟨_, _, storeAtIndex_inside _ h, nofun, rfl, rfl, rfl, .inr ⟨rfl, rfl⟩, fun hwf => .store hwf h⟩)
    · exact .inl ⟨_, storeAtIndex_outside _ (Nat.succ_pos _) (by omega)⟩
  | ldMemVx x =>
    by_cases h : s.base + (s.regsUpTo x).length ≤ Config.memorySize
    · refine .inr (.inr ⟨_, _, storeAtIndex_inside _ h, nofun, rfl, rfl, rfl, .inr ⟨rfl, rfl⟩, fun hwf => ?_⟩)
      simpa only [writesOf, s.length_regsUpTo x] using OnlyChanges.store hwf h
    · exact .inl ⟨_, storeAtIndex_outside _ (by simp) (by omega)⟩
  | ldVxMem x =>
    by_cases h : s.base + countUpTo x ≤ Config.memorySize
    · exact .inr (.inr ⟨_, _, execLdVxMem_inside x h, nofun, rfl, rfl, rfl,
        .inr ⟨s.setRegs_sp _, s.setRegs_stack _⟩, fun _ =>
        .setRegs s x fun _ hr => withFirstRegs_load_of_gt s.v _ _ hr⟩)
    · exact .inl ⟨_, execLdVxMem_outside x (by omega)⟩
  | skpVx x =>
    by_cases h : (s.getV x).toNat < 16
    · exact .inr (.inr ⟨_, _, execSkpVx_of_lt x h, nofun, rfl, rfl, rfl, .inr ⟨rfl, rfl⟩, fun _ => .refl s⟩)
    · exact .inl ⟨_, execSkpVx_of_ge x (by omega)⟩
  | sknpVx x =>
    by_cases h : (s.getV x).toNat < 16
    · exact .inr (.inr ⟨_, _, execSknpVx_of_lt x h, nofun, rfl, rfl, rfl, .inr ⟨rfl, rfl⟩, fun _ => .refl s⟩)
    · exact .inl ⟨_, execSknpVx_of_ge x (by omega)⟩
  | jp | jpV0Nnn | seVxKk | sneVxKk | seVxVy | sneVxVy =>
    exact .inr (.inr ⟨s, _, rfl, nofun, rfl, rfl, rfl, .inr ⟨rfl, rfl⟩, fun _ => .refl s⟩)
  | ldVxKk | addVxKk | ldVxVy | orVxVy | andVxVy | xorVxVy | ldVxDt =>
    exact .inr (.inr ⟨_, _, rfl, nofun, rfl, rfl, rfl, .inr ⟨rfl, rfl⟩, fun _ => .setV s _ _⟩)
  | addVxVy | subVxVy | shrVx | subnVxVy | shlVx =>
    exact .inr (.inr ⟨_, _, rfl, nofun, rfl, rfl, rfl, .inr ⟨rfl, rfl⟩, fun _ => .writeFlagged s _ _ _⟩)
  | ldINnn | addIVx | ldFVx => exact .inr (.inr ⟨_, _, rfl, nofun, rfl, rfl, rfl, .inr ⟨rfl, rfl⟩, fun _ => .setI s _⟩)
  | cls => exact .inr (.inr ⟨_, _, rfl, nofun, rfl, rfl, rfl, .inr ⟨rfl, rfl⟩, fun _ => .setDisp s _⟩)
  | ldDtVx => exact .inr (.inr ⟨_, _, rfl, nofun, rfl, rfl, rfl, .inr ⟨rfl, rfl⟩, fun _ => .setDt s _⟩)
  | ldStVx => exact .inr (.inr ⟨_, _, rfl, nofun, rfl, rfl, rfl, .inr ⟨rfl, rfl⟩, fun _ => .setSt s _⟩)
  | rndVxKk x kk =>
    exact .inr (.inr ⟨_, _, rfl, nofun, rfl, rfl, rfl, .inr ⟨rfl, rfl⟩, fun _ =>
      ((OnlyChanges.draw s).trans (OnlyChanges.setV _ x _)).mono (by simp [writesOf])⟩)

/-- An instruction other than 00EE and 2NNN leaves sp and the stack. -/
theorem exec_stack {i : Instr} {s t : State} (hi : ¬NamesStack i) (hexec : exec i s = .next t) :
    t.sp = s.sp ∧ t.stack = s.stack := by
  rcases exec_cases i s with ⟨c, hraise⟩ | ⟨x, rfl, hwait⟩ | ⟨u, w, hcomp⟩
  · obtain rfl := Host.Outcome.next.inj (hraise.symm.trans hexec)
    exact ⟨rfl, rfl⟩
  · obtain rfl := Host.Outcome.next.inj (hwait.symm.trans hexec)
    exact ⟨rfl, rfl⟩
  · obtain rfl := Host.Outcome.next.inj (hcomp.answer.symm.trans hexec)
    exact hcomp.stack.resolve_left hi

/-- Settles O54: the cases of `exec_cases`, with pc and the counter added where the instruction completes. -/
theorem everyInstructionWritesOnlyItsParts : Obligations.EveryInstructionWritesOnlyItsParts := by
  intro i s t hwf hexec
  rcases exec_cases i s with ⟨c, hraise⟩ | ⟨x, rfl, hwait⟩ | ⟨u, w, hcomp⟩
  · obtain rfl := Host.Outcome.next.inj (hraise.symm.trans hexec)
    exact .inl ⟨_, rfl⟩
  · obtain rfl := Host.Outcome.next.inj (hwait.symm.trans hexec)
    exact .inr ((OnlyChanges.setWait s (some x)).mono (List.subset_append_left _ _))
  · obtain rfl := Host.Outcome.next.inj (hcomp.answer.symm.trans hexec)
    exact .inr ((hcomp.frame hwf).complete w)

/-- Settles O55: only the end of an instruction moves the counter, and one that reaches its end leaves the latch alone. -/
theorem completedInstructionsCountOneCycle : Obligations.CompletedInstructionsCountOneCycle := by
  intro i s t hfault hexec
  rcases exec_cases i s with ⟨c, hraise⟩ | ⟨x, rfl, hwait⟩ | ⟨u, w, hcomp⟩
  · obtain rfl := Host.Outcome.next.inj (hraise.symm.trans hexec)
    exact (if_neg fun h => Option.some_ne_none _ h.1).symm
  · obtain rfl := Host.Outcome.next.inj (hwait.symm.trans hexec)
    exact (if_neg fun h => h.2 x rfl).symm
  · obtain rfl := Host.Outcome.next.inj (hcomp.answer.symm.trans hexec)
    rw [if_pos ⟨hcomp.fault.trans hfault, hcomp.notWait⟩, State.complete_cycles, hcomp.cycles]

end Sys2Proof.Machine
end

section
/-! What a Cycle can do, said once (spec/40_cycle_driver.md R91, R92, R97). -/

namespace Sys2Proof.Machine

/-- What the record of a Cycle that raises holds as the fetched word (R175). -/
def State.fetchedWord (s : State) : Option Word :=
  if s.pc.toNat ≤ Config.lastFetch then some (s.mem.wordAt s.pc.toNat) else none

theorem runWord_of_decode {op : Word} {i : Instr} (s : State) (h : decodeWord op = .ok i) : runWord op s = exec i s := by
  simp only [runWord, h]

theorem runWord_of_unknown {op : Word} {e : DecodeError} (s : State) (h : decodeWord op = .error e) :
    runWord op s = raise (.unknownOpcode op) (some op) s := by
  simp only [runWord, h]

/-- A Cycle that fetches the word of an instruction runs that instruction. -/
theorem cycle_of_word {s : State} {i : Instr} (hrun : s.Running) (hpc : s.pc.toNat ≤ Config.lastFetch)
    (hword : s.mem.wordAt s.pc.toNat = encode i) : cycle s = exec i s := by
  rw [cycle_running hrun.1 hrun.2, if_pos hpc, runWord_of_decode s (decodeWord_eq_ok_iff.mpr hword.symm)]

theorem State.running_or_idle (s : State) : s.Running ∨ s.fault ≠ none ∨ s.wait ≠ none := by
  rw [State.Running, ← not_and_or]
  exact em _

/-- How a Cycle can go: it is idle, it runs the instruction whose word it fetched, or it raises. -/
theorem cycle_cases (s : State) :
    ((s.fault ≠ none ∨ s.wait ≠ none) ∧ cycle s = .next s) ∨
    (∃ i, s.Running ∧ s.pc.toNat ≤ Config.lastFetch ∧ s.mem.wordAt s.pc.toNat = encode i ∧ cycle s = exec i s) ∨
    ∃ c, s.Running ∧ cycle s = raise c s.fetchedWord s := by
  rcases s.running_or_idle with hrun | hidle
  · by_cases hpc : s.pc.toNat ≤ Config.lastFetch
    · cases hdec : decodeWord (s.mem.wordAt s.pc.toNat) with
      | ok i =>
        have hword := (decodeWord_eq_ok_iff.mp hdec).symm
        exact .inr (.inl ⟨i, hrun, hpc, hword, cycle_of_word hrun hpc hword⟩)
      | error e =>
        refine .inr (.inr ⟨.unknownOpcode (s.mem.wordAt s.pc.toNat), hrun, ?_⟩)
        rw [cycle_running hrun.1 hrun.2, if_pos hpc, runWord_of_unknown s hdec, State.fetchedWord, if_pos hpc]
    · refine .inr (.inr ⟨.outOfBoundsAccess s.pc.toNat, hrun, ?_⟩)
      rw [cycle_running hrun.1 hrun.2, if_neg hpc, State.fetchedWord, if_neg hpc]
  · exact .inl ⟨hidle, cycle_idle hidle⟩

/-- A Cycle reads the latch, `wait`, pc and memory, and then goes the same way in every state in which these are the same. -/
theorem cycle_congr {s s' : State} (hfault : s'.fault = s.fault) (hwait : s'.wait = s.wait) (hpc : s'.pc = s.pc)
    (hmem : s'.mem = s.mem) :
    (cycle s = .next s ∧ cycle s' = .next s') ∨ (∃ i, cycle s = exec i s ∧ cycle s' = exec i s') ∨
    ∃ c op, cycle s = raise c op s ∧ cycle s' = raise c op s' := by
  rcases s.running_or_idle with hrun | hidle
  · rw [cycle_running hrun.1 hrun.2, cycle_running (hfault.trans hrun.1) (hwait.trans hrun.2), hpc, hmem]
    split
    · cases hdec : decodeWord (s.mem.wordAt s.pc.toNat) with
      | ok i => exact .inr (.inl ⟨i, runWord_of_decode s hdec, runWord_of_decode s' hdec⟩)
      | error e => exact .inr (.inr ⟨_, _, runWord_of_unknown s hdec, runWord_of_unknown s' hdec⟩)
    · exact .inr (.inr ⟨_, _, rfl, rfl⟩)
  · exact .inl ⟨cycle_idle hidle, cycle_idle (by rwa [hfault, hwait])⟩

/-- Settles O7: the next event is a Cycle, which fetches at pc the word of `i`; taking the event off the schedule changes
neither pc nor memory. -/
theorem stepRunsTheDecodedInstruction : Obligations.StepRunsTheDecodedInstruction := by
  rintro s i ⟨hrun, hevent, hpc⟩ hdec
  refine ⟨?_, rfl⟩
  have hword : decodeWord (s.mem.wordAt s.pc.toNat) = .ok i := by
    simp only [decodeBytes] at hdec
    split at hdec
    · cases hdec; assumption
    · cases hdec
  have hrun' : s.dropEvent.Running := hrun
  rw [step, hevent]
  exact cycle_of_word hrun' hpc (decodeWord_eq_ok_iff.mp hword).symm

/-- Settles O43: a word that selects no row is unknown to the decoder. -/
theorem unknownWordRaises : Obligations.UnknownWordRaises := by
  intro s hrun hpc hrows
  have hunknown := decodeWord_of_not_selects hrows
  exact (cycle_running hrun.1 hrun.2).trans ((if_pos hpc).trans (runWord_of_unknown s hunknown))

/-- From a state with no error latched, the answer of an instruction has one only where the instruction raised. -/
theorem exec_raises_of_fault {i : Instr} {s t : State} {r : FaultRecord} (hfault : s.fault = none)
    (hexec : exec i s = .next t) (hlatch : t.fault = some r) : ∃ c, exec i s = raise c (some (encode i)) s := by
  have hkept (h : t.fault = s.fault) : False := Option.some_ne_none r (hlatch.symm.trans (h.trans hfault))
  rcases exec_cases i s with hraise | ⟨x, -, hwait⟩ | ⟨u, w, hcomp⟩
  · exact hraise
  · obtain rfl := Host.Outcome.next.inj (hwait.symm.trans hexec)
    exact (hkept (s.setWait_fault _)).elim
  · obtain rfl := Host.Outcome.next.inj (hcomp.answer.symm.trans hexec)
    exact (hkept ((u.complete_fault w).trans hcomp.fault)).elim

/-- A Cycle that sets the latch has raised: at its fetch, at an unknown word, or in an instruction, which records its own
word, the word that was fetched. -/
theorem cycle_raises_of_fault {s t : State} {r : FaultRecord} (hfault : s.fault = none) (hcycle : cycle s = .next t)
    (hlatch : t.fault = some r) : ∃ c, cycle s = raise c s.fetchedWord s := by
  rcases cycle_cases s with ⟨-, hidle⟩ | ⟨i, -, hpc, hword, hexec⟩ | ⟨c, -, hraise⟩
  · obtain rfl := Host.Outcome.next.inj (hidle.symm.trans hcycle)
    exact absurd (hlatch.symm.trans hfault) (Option.some_ne_none r)
  · obtain ⟨c, hraise⟩ := exec_raises_of_fault hfault (hexec.symm.trans hcycle) hlatch
    refine ⟨c, ?_⟩
    rw [hexec, hraise, State.fetchedWord, if_pos hpc, hword]
  · exact ⟨c, hraise⟩

/-- Settles O44: the record is that of the raise, which changes nothing else. -/
theorem faultingCycleIsPrecise : Obligations.FaultingCycleIsPrecise := by
  intro s t r hfault hcycle hlatch
  obtain ⟨c, hraise⟩ := cycle_raises_of_fault hfault hcycle hlatch
  obtain rfl := Host.Outcome.next.inj (hraise.symm.trans hcycle)
  obtain rfl := Option.some.inj hlatch
  exact ⟨rfl, rfl, rfl⟩

end Sys2Proof.Machine
end

section
/-! The invariant (spec/10_state.md R42): the reset state meets it and every step keeps it. -/

namespace Sys2Proof.Machine

/-- A word that CALL may have saved: the address after an instruction that was fetched. -/
def IsReturnAddress (w : Word) : Prop := 2 ≤ w.toNat ∧ w.toNat ≤ 0x1000

theorem toNat_add_of_fetchable {pc : Word} (h : pc.toNat ≤ Config.lastFetch) (n : Nat) (hn : n ≤ 4) :
    (pc + BitVec.ofNat 16 n).toNat = pc.toNat + n := by
  rw [Config.lastFetch] at h
  rw [BitVec.toNat_add, BitVec.toNat_ofNat]
  omega

theorem isReturnAddress_of_fetchable {pc : Word} (h : pc.toNat ≤ Config.lastFetch) : IsReturnAddress (pc + 2) := by
  have hsum : (pc + 2).toNat = pc.toNat + 2 := toNat_add_of_fetchable h 2 (by decide)
  rw [Config.lastFetch] at h
  rw [IsReturnAddress, hsum]
  omega

theorem toNat_offsetTarget (b : Byte) (nnn : BitVec 12) : (offsetTarget b nnn).toNat = b.toNat + nnn.toNat := by
  have := b.isLt
  have := nnn.isLt
  rw [offsetTarget, BitVec.toNat_ofNat]
  omega

/-- In a running state the clauses on a pending wait and on the latch say nothing. -/
theorem State.Running.inv {s : State} (hrun : s.Running) (hmem : s.mem.wf = true) (hpc : s.pc.toNat ≤ 0x10FE)
    (hentries : ∀ j : Fin 16, j.val < s.sp.val → IsReturnAddress s.stack[j.val]) : s.Inv where
  memory := hmem
  pcBound := hpc
  entries := hentries
  waiting := fun h => absurd hrun.2 h
  latched := fun r h => absurd (hrun.1.symm.trans h) (Option.some_ne_none r).symm

/-- Ending an instruction keeps the invariant where the next pc is within the bound. -/
theorem State.Inv.complete {s : State} {w : Word} (h : s.Inv) (hrun : s.Running) (hw : w.toNat ≤ 0x10FE) :
    (s.complete w).Inv :=
  (hrun.complete w).inv h.memory hw h.entries

theorem State.Inv.fallThrough {s : State} (h : s.Inv) (hrun : s.Running) (hpc : s.pc.toNat ≤ Config.lastFetch) :
    s.fallThrough.Inv := by
  refine h.complete hrun ?_
  have hsum : (s.pc + 2).toNat = s.pc.toNat + 2 := toNat_add_of_fetchable hpc 2 (by decide)
  rw [Config.lastFetch] at hpc
  omega

theorem State.Inv.skipIf {s : State} (h : s.Inv) (hrun : s.Running) (hpc : s.pc.toNat ≤ Config.lastFetch) (c : Bool) :
    (s.skipIf c).Inv := by
  cases c with
  | false => exact h.fallThrough hrun hpc
  | true =>
    refine h.complete hrun ?_
    have hsum : (s.pc + 4).toNat = s.pc.toNat + 4 := toNat_add_of_fetchable hpc 4 (by decide)
    rw [Config.lastFetch] at hpc
    show (s.pc + 4).toNat ≤ 0x10FE
    omega

theorem State.Inv.setFault {s : State} (h : s.Inv) (c : Cause) (op : Option Word) :
    (s.setFault ⟨c, s.pc, op⟩).Inv where
  memory := h.memory
  pcBound := h.pcBound
  entries := h.entries
  waiting := h.waiting
  latched := by rintro r ⟨⟩; rfl

theorem State.Inv.setWait {s : State} (h : s.Inv) (hpc : s.pc.toNat ≤ Config.lastFetch) (w : Option Reg) :
    (s.setWait w).Inv where
  memory := h.memory
  pcBound := h.pcBound
  entries := h.entries
  waiting := fun _ => hpc
  latched := h.latched

theorem State.Inv.setMem_store {s : State} (h : s.Inv) {bs : List Byte} (hin : s.base + bs.length ≤ Config.memorySize) :
    (s.setMem (s.mem.store s.base bs)).Inv where
  memory := Memory.wf_store h.memory hin
  pcBound := h.pcBound
  entries := h.entries
  waiting := h.waiting
  latched := h.latched

theorem State.Inv.setRegs {s : State} (h : s.Inv) (v : Vector Byte 16) : (s.setRegs v).Inv where
  memory := h.memory
  pcBound := h.pcBound
  entries := h.entries
  waiting := h.waiting
  latched := h.latched

theorem State.Running.setRegs {s : State} (h : s.Running) (v : Vector Byte 16) : (s.setRegs v).Running := h

theorem State.Inv.popped {s : State} (h : s.Inv) : s.popped.Inv where
  memory := h.memory
  pcBound := h.pcBound
  entries := fun j hj => h.entries j (Nat.lt_of_lt_of_le hj (Nat.sub_le _ _))
  waiting := h.waiting
  latched := h.latched

theorem State.getElem_stack_pushed (s : State) (w : Word) (h : s.sp.val < 16) (j : Fin 16) :
    (s.pushed w h).stack[j.val] = if j.val = s.sp.val then w else s.stack[j.val] := by
  rw [State.pushed, Vector.getElem_set]
  simp only [eq_comm]

theorem State.Inv.pushed {s : State} (hinv : s.Inv) {w : Word} (hw : IsReturnAddress w) (h : s.sp.val < 16) :
    (s.pushed w h).Inv where
  memory := hinv.memory
  pcBound := hinv.pcBound
  entries := by
    intro j hj
    have hlt : j.val < s.sp.val + 1 := hj
    rw [State.getElem_stack_pushed]
    split
    · exact hw
    · exact hinv.entries j (by omega)
  waiting := hinv.waiting
  latched := hinv.latched

/-- The invariant reads memory, pc, the stack, `wait` and the latch. -/
theorem State.Inv.congr {s t : State} (h : s.Inv) (hmem : t.mem = s.mem) (hpc : t.pc = s.pc) (hsp : t.sp = s.sp)
    (hstack : t.stack = s.stack) (hwait : t.wait = s.wait) (hfault : t.fault = s.fault) : t.Inv := by
  obtain ⟨h1, h2, h3, h4, h5⟩ := h
  exact ⟨hmem ▸ h1, hpc ▸ h2, by rw [hsp, hstack]; exact h3, by rw [hwait, hpc]; exact h4, by rw [hfault, hpc]; exact h5⟩

theorem State.Inv.of_raise {s t : State} {c : Cause} {op : Option Word} (h : s.Inv) (hraise : raise c op s = .next t) :
    t.Inv := by
  obtain rfl := Host.Outcome.next.inj hraise
  exact h.setFault c op

/-- A store from I on either raises or leaves memory canonical. -/
theorem storeAtIndex_keeps_inv {s t : State} {op : Word} {bs : List Byte} (hinv : s.Inv) (hrun : s.Running)
    (hpc : s.pc.toNat ≤ Config.lastFetch) (hbs : 0 < bs.length) (hstore : storeAtIndex op bs s = .next t) : t.Inv := by
  by_cases hin : s.base + bs.length ≤ Config.memorySize
  · obtain rfl := Host.Outcome.next.inj ((storeAtIndex_inside op hin).symm.trans hstore)
    exact (hinv.setMem_store hin).fallThrough hrun hpc
  · exact hinv.of_raise ((storeAtIndex_outside op hbs (by omega)).symm.trans hstore)

/-- An instruction run from a fetchable address keeps the invariant: it raises, waits, or ends with a pc within the bound:
pc + 2 or pc + 4, a 12-bit address with at most a byte added, or a return address. -/
theorem exec_keeps_inv {i : Instr} {s t : State} (hinv : s.Inv) (hrun : s.Running)
    (hpc : s.pc.toNat ≤ Config.lastFetch) (hexec : exec i s = .next t) : t.Inv := by
  cases i with
  | ldVxK x =>
    cases hexec
    exact hinv.setWait hpc (some x)
  | ret =>
    by_cases h : 0 < s.sp.val
    · obtain rfl := Host.Outcome.next.inj ((execRet_of_pos h).symm.trans hexec)
      have htop := (hinv.entries ⟨s.sp.val - 1, by omega⟩ (Nat.sub_lt h Nat.one_pos)).2
      exact hinv.popped.complete hrun (htop.trans (by decide))
    · exact hinv.of_raise ((execRet_of_zero (by omega)).symm.trans hexec)
  | call nnn =>
    by_cases h : s.sp.val < 16
    · obtain rfl := Host.Outcome.next.inj ((execCall_of_lt nnn h).symm.trans hexec)
      refine (hinv.pushed (isReturnAddress_of_fetchable hpc) h).complete hrun ?_
      have := nnn.isLt
      rw [toNat_addressOf]
      omega
    · exact hinv.of_raise ((execCall_of_full nnn (by omega)).symm.trans hexec)
  | jp nnn =>
    cases hexec
    refine hinv.complete hrun ?_
    have := nnn.isLt
    rw [toNat_addressOf]
    omega
  | jpV0Nnn nnn =>
    cases hexec
    refine hinv.complete hrun ?_
    have := nnn.isLt
    have := (s.getV V0).isLt
    rw [toNat_offsetTarget]
    omega
  | seVxKk | sneVxKk | seVxVy | sneVxVy =>
    cases hexec
    exact hinv.skipIf hrun hpc _
  | skpVx x =>
    by_cases h : (s.getV x).toNat < 16
    · obtain rfl := Host.Outcome.next.inj ((execSkpVx_of_lt x h).symm.trans hexec)
      exact hinv.skipIf hrun hpc _
    · exact hinv.of_raise ((execSkpVx_of_ge x (by omega)).symm.trans hexec)
  | sknpVx x =>
    by_cases h : (s.getV x).toNat < 16
    · obtain rfl := Host.Outcome.next.inj ((execSknpVx_of_lt x h).symm.trans hexec)
      exact hinv.skipIf hrun hpc _
    · exact hinv.of_raise ((execSknpVx_of_ge x (by omega)).symm.trans hexec)
  | drwVxVyN x y n =>
    by_cases h : n.val = 0 ∨ s.base + n.val ≤ Config.memorySize
    · obtain rfl := Host.Outcome.next.inj ((execDrwVxVyN_inside x y n h).symm.trans hexec)
      exact (hinv.fallThrough hrun hpc).congr rfl rfl rfl rfl rfl rfl
    · exact hinv.of_raise ((execDrwVxVyN_outside x y n (by omega) (by omega)).symm.trans hexec)
  | ldVxMem x =>
    by_cases h : s.base + countUpTo x ≤ Config.memorySize
    · obtain rfl := Host.Outcome.next.inj ((execLdVxMem_inside x h).symm.trans hexec)
      exact (hinv.setRegs _).fallThrough (hrun.setRegs _) hpc
    · exact hinv.of_raise ((execLdVxMem_outside x (by omega)).symm.trans hexec)
  | ldBVx x => exact storeAtIndex_keeps_inv (bs := decimalDigits _) hinv hrun hpc (by simp) hexec
  | ldMemVx x => exact storeAtIndex_keeps_inv (bs := s.regsUpTo x) hinv hrun hpc (by simp) hexec
  | cls | ldVxKk | addVxKk | ldVxVy | orVxVy | andVxVy | xorVxVy | addVxVy | subVxVy | shrVx | subnVxVy | shlVx | ldINnn
  | rndVxKk | ldVxDt | ldDtVx | ldStVx | addIVx | ldFVx =>
    cases hexec
    exact (hinv.fallThrough hrun hpc).congr rfl rfl rfl rfl rfl rfl

theorem cycle_keeps_inv {s t : State} (hinv : s.Inv) (hcycle : cycle s = .next t) : t.Inv := by
  rcases cycle_cases s with ⟨-, hidle⟩ | ⟨i, hrun, hpc, -, hexec⟩ | ⟨c, -, hraise⟩
  · obtain rfl := Host.Outcome.next.inj (hidle.symm.trans hcycle)
    exact hinv
  · exact exec_keeps_inv hinv hrun hpc (hexec.symm.trans hcycle)
  · exact hinv.of_raise (hraise.symm.trans hcycle)

/-! What the three events do that are neither a Cycle nor a reset. -/

theorem tick_of_fault {s : State} (h : s.fault ≠ none) : tick s = s :=
  if_pos (Option.isSome_iff_ne_none.mpr h)

theorem tick_of_no_fault {s : State} (h : s.fault = none) :
    tick s = (s.setDt (countDown s.dt)).setSt (countDown s.st) := by
  simp [tick, h]

theorem keyPress_of_fault {s : State} (k : Key) (h : s.fault ≠ none) : keyPress k s = s :=
  if_pos (Option.isSome_iff_ne_none.mpr h)

theorem keyPress_of_no_edge {s : State} {k : Key} (h : s.fault = none) (hedge : s.wait = none ∨ s.keyDown k = true) :
    keyPress k s = s.setKey k true := by
  cases hwait : s.wait with
  | none => simp [keyPress, h, hwait]
  | some x =>
    have hdown : s.keyDown k = true := hedge.resolve_left (hwait ▸ Option.some_ne_none x)
    simp [keyPress, h, hwait, hdown]

theorem keyRelease_of_fault {s : State} (k : Key) (h : s.fault ≠ none) : keyRelease k s = s :=
  if_pos (Option.isSome_iff_ne_none.mpr h)

theorem keyRelease_of_no_fault {s : State} (k : Key) (h : s.fault = none) : keyRelease k s = s.setKey k false := by
  simp [keyRelease, h]

/-- A press does nothing, latches its key, or latches it and resolves a wait, when the key was up. -/
theorem keyPress_cases (k : Key) (s : State) :
    (s.fault ≠ none ∧ keyPress k s = s) ∨
    (s.fault = none ∧ (s.wait = none ∨ s.keyDown k = true) ∧ keyPress k s = s.setKey k true) ∨
    ∃ x, s.fault = none ∧ s.wait = some x ∧ s.keyDown k = false ∧ keyPress k s = resolveWait x k (s.setKey k true) := by
  by_cases hfault : s.fault = none
  · cases hwait : s.wait with
    | none => exact .inr (.inl ⟨hfault, .inl rfl, keyPress_of_no_edge hfault (.inl hwait)⟩)
    | some x =>
      cases hkey : s.keyDown k with
      | true => exact .inr (.inl ⟨hfault, .inr rfl, keyPress_of_no_edge hfault (.inr hkey)⟩)
      | false => exact .inr (.inr ⟨x, hfault, rfl, rfl, keyPress_of_wait_of_up hfault hwait hkey⟩)
  · exact .inl ⟨hfault, keyPress_of_fault k hfault⟩

theorem tick_keeps_inv {s : State} (hinv : s.Inv) : (tick s).Inv := by
  by_cases hfault : s.fault = none
  · rw [tick_of_no_fault hfault]
    exact hinv.congr rfl rfl rfl rfl rfl rfl
  · rwa [tick_of_fault hfault]

theorem State.Inv.setKey {s : State} (hinv : s.Inv) (k : Key) (d : Bool) : (s.setKey k d).Inv :=
  hinv.congr rfl rfl rfl rfl rfl rfl

/-- Resolving a wait ends the FX0A, which was fetched. -/
theorem State.Inv.resolveWait {s : State} {x : Reg} (hinv : s.Inv) (hfault : s.fault = none) (hwait : s.wait = some x)
    (k : Key) : (resolveWait x k s).Inv := by
  have hpc : s.pc.toNat ≤ Config.lastFetch := hinv.waiting (hwait ▸ Option.some_ne_none x)
  have hrun : (s.setWait none).Running := ⟨hfault, rfl⟩
  exact ((hinv.setWait hpc none).fallThrough hrun hpc).congr rfl rfl rfl rfl rfl rfl

theorem keyPress_keeps_inv {s : State} (hinv : s.Inv) (k : Key) : (keyPress k s).Inv := by
  rcases keyPress_cases k s with ⟨-, h⟩ | ⟨-, -, h⟩ | ⟨x, hfault, hwait, -, h⟩ <;> rw [h]
  · exact hinv
  · exact hinv.setKey k true
  · exact (hinv.setKey k true).resolveWait hfault hwait k

theorem keyRelease_keeps_inv {s : State} (hinv : s.Inv) (k : Key) : (keyRelease k s).Inv := by
  by_cases hfault : s.fault = none
  · rw [keyRelease_of_no_fault k hfault]
    exact hinv.setKey k false
  · rwa [keyRelease_of_fault k hfault]

theorem State.reset_running : State.reset.Running := ⟨rfl, rfl⟩

theorem State.inv_reset : State.reset.Inv :=
  State.reset_running.inv rfl (by decide) fun _ hj => absurd hj (Nat.not_lt_zero _)

/-- A fresh session is `State.reset` but for its memory, which is canonical, and the model's own fields. -/
theorem State.inv_fresh (s : State) {rom : List Byte} (hrom : rom.length ≤ Config.maxRom) :
    ({ State.reset with mem := Memory.fresh s.font rom, draws := s.draws, schedule := s.schedule, font := s.font } :
      State).Inv where
  memory := Memory.wf_fresh hrom
  pcBound := State.inv_reset.pcBound
  entries := State.inv_reset.entries
  waiting := State.inv_reset.waiting
  latched := State.inv_reset.latched

theorem State.Inv.dropEvent {s : State} (hinv : s.Inv) : s.dropEvent.Inv := hinv.congr rfl rfl rfl rfl rfl rfl

/-- Settles O51: each of the five events keeps the invariant, and taking an event off the schedule leaves all it reads. -/
theorem everyStepKeepsTheInvariant : Obligations.EveryStepKeepsTheInvariant := by
  intro s t hinv hstep
  have hinv' := hinv.dropEvent
  rcases applyEvent_next hstep with ⟨-, hcycle⟩ | ⟨-, rfl⟩ | ⟨k, -, rfl⟩ | ⟨k, -, rfl⟩ | ⟨rom, -, hrom, rfl⟩
  · exact cycle_keeps_inv hinv' hcycle
  · exact tick_keeps_inv hinv'
  · exact keyPress_keeps_inv hinv' k
  · exact keyRelease_keeps_inv hinv' k
  · exact State.inv_fresh _ hrom

end Sys2Proof.Machine
end

section
/-! The instruction that a pending wait belongs to (spec/46_input_timers.md R163): a wait begins at an FX0A at pc, pc and
memory stay while it lasts, and it ends with the press of a key that was up, or with a reset. -/

namespace Sys2Proof.Machine

/-- An instruction leaves `wait` as it is, or is FX0A and sets it and nothing else. -/
theorem exec_wait {i : Instr} {s t : State} (hexec : exec i s = .next t) :
    t.wait = s.wait ∨ ∃ x, i = .ldVxK x ∧ t = s.setWait (some x) := by
  rcases exec_cases i s with ⟨c, hraise⟩ | ⟨x, hi, hwait⟩ | ⟨u, w, hcomp⟩
  · obtain rfl := Host.Outcome.next.inj (hraise.symm.trans hexec)
    exact .inl rfl
  · exact .inr ⟨x, hi, Host.Outcome.next.inj (hexec.symm.trans hwait)⟩
  · obtain rfl := Host.Outcome.next.inj (hcomp.answer.symm.trans hexec)
    exact .inl hcomp.wait

/-- A Cycle changes nothing, or leaves `wait` none, or sets `wait` to the X of the FX0A at pc and changes nothing else. -/
theorem cycle_wait {s t : State} (hcycle : cycle s = .next t) :
    t = s ∨ (s.wait = none ∧ t.wait = none) ∨
    ∃ x, s.Running ∧ s.pc.toNat ≤ Config.lastFetch ∧ s.mem.wordAt s.pc.toNat = encode (.ldVxK x) ∧
      t = s.setWait (some x) := by
  rcases cycle_cases s with ⟨-, hidle⟩ | ⟨i, hrun, hpc, hword, hexec⟩ | ⟨c, hrun, hraise⟩
  · exact .inl (Host.Outcome.next.inj (hcycle.symm.trans hidle))
  · rcases exec_wait (hexec.symm.trans hcycle) with hwait | ⟨x, rfl, ht⟩
    · exact .inr (.inl ⟨hrun.2, hwait.trans hrun.2⟩)
    · exact .inr (.inr ⟨x, hrun, hpc, hword, ht⟩)
  · obtain rfl := Host.Outcome.next.inj (hraise.symm.trans hcycle)
    exact .inr (.inl ⟨hrun.2, hrun.2⟩)

/-- The rule reads `wait`, pc and memory. -/
theorem State.WaitsAtItsInstruction.congr {s t : State} (h : s.WaitsAtItsInstruction) (hwait : t.wait = s.wait)
    (hpc : t.pc = s.pc) (hmem : t.mem = s.mem) : t.WaitsAtItsInstruction := by
  rw [State.WaitsAtItsInstruction, hwait, hpc, hmem]
  exact h

theorem State.waitsAtItsInstruction_of_no_wait {s : State} (h : s.wait = none) : s.WaitsAtItsInstruction :=
  fun x hx => absurd (h.symm.trans hx) (Option.some_ne_none x).symm

theorem cycle_keeps_wait {s t : State} (h : s.WaitsAtItsInstruction) (hcycle : cycle s = .next t) :
    t.WaitsAtItsInstruction := by
  rcases cycle_wait hcycle with rfl | ⟨-, hwait⟩ | ⟨x, -, hpc, hword, rfl⟩
  · exact h
  · exact State.waitsAtItsInstruction_of_no_wait hwait
  · rintro y ⟨⟩
    exact ⟨hpc, hword⟩

/-- Settles O52: a Cycle starts a wait only at its FX0A; the other events leave pc and memory, or end the wait. -/
theorem everyStepKeepsAWaitAtItsInstruction : Obligations.EveryStepKeepsAWaitAtItsInstruction := by
  intro s t h hstep
  have h' : s.dropEvent.WaitsAtItsInstruction := h
  rcases applyEvent_next hstep with ⟨-, hcycle⟩ | ⟨-, rfl⟩ | ⟨k, -, rfl⟩ | ⟨k, -, rfl⟩ | ⟨rom, -, -, rfl⟩
  · exact cycle_keeps_wait h' hcycle
  · by_cases hfault : s.dropEvent.fault = none
    · rw [tick_of_no_fault hfault]
      exact h'.congr rfl rfl rfl
    · rwa [tick_of_fault hfault]
  · rcases keyPress_cases k s.dropEvent with ⟨-, hk⟩ | ⟨-, -, hk⟩ | ⟨x, -, -, -, hk⟩ <;> rw [hk]
    · exact h'
    · exact h'.congr rfl rfl rfl
    · exact State.waitsAtItsInstruction_of_no_wait (resolveWait_wait x k _)
  · by_cases hfault : s.dropEvent.fault = none
    · rw [keyRelease_of_no_fault k hfault]
      exact h'.congr rfl rfl rfl
    · rwa [keyRelease_of_fault k hfault]
  · exact State.waitsAtItsInstruction_of_no_wait rfl

/-- Settles O50: right after reset no entry is in use, no key is awaited and no error is latched. -/
theorem resetMeetsTheInvariants : Obligations.ResetMeetsTheInvariants :=
  ⟨State.inv_reset, State.waitsAtItsInstruction_of_no_wait rfl⟩

theorem tick_wait (s : State) : (tick s).wait = s.wait := by
  by_cases h : s.fault = none
  · rw [tick_of_no_fault h]; rfl
  · rw [tick_of_fault h]

theorem keyRelease_wait (k : Key) (s : State) : (keyRelease k s).wait = s.wait := by
  by_cases h : s.fault = none
  · rw [keyRelease_of_no_fault k h]; rfl
  · rw [keyRelease_of_fault k h]

/-- A press leaves `wait` as it is, or ends it because its key was up. -/
theorem keyPress_wait (k : Key) (s : State) :
    (keyPress k s).wait = s.wait ∨ (keyPress k s).wait = none ∧ s.keyDown k = false := by
  rcases keyPress_cases k s with ⟨-, h⟩ | ⟨-, -, h⟩ | ⟨x, -, -, hup, h⟩ <;> rw [h]
  · exact .inl rfl
  · exact .inl rfl
  · exact .inr ⟨rfl, hup⟩

/-- What a step can do to `wait`: leave it, begin one at the FX0A that it fetches, or end it by a key edge or a reset. -/
theorem step_wait {s t : State} (hstep : step s = .next t) :
    t.wait = s.wait ∨
    (∃ x, s.Fetches ∧ s.mem.wordAt s.pc.toNat = encode (.ldVxK x) ∧ t.wait = some x) ∨
    (t.wait = none ∧ ((∃ k, s.nextEvent = .keyPress k ∧ s.keyDown k = false) ∨ ∃ rom, s.nextEvent = .reset rom)) := by
  rcases applyEvent_next hstep with ⟨he, hcycle⟩ | ⟨-, rfl⟩ | ⟨k, he, rfl⟩ | ⟨k, -, rfl⟩ | ⟨rom, he, -, rfl⟩
  · rcases cycle_wait hcycle with rfl | ⟨hs, ht⟩ | ⟨x, hrun, hpc, hword, rfl⟩
    · exact .inl rfl
    · exact .inl (ht.trans hs.symm)
    · exact .inr (.inl ⟨x, ⟨hrun, he, hpc⟩, hword, rfl⟩)
  · exact .inl (tick_wait _)
  · rcases keyPress_wait k s.dropEvent with hsame | ⟨hnone, hup⟩
    · exact .inl hsame
    · exact .inr (.inr ⟨hnone, .inl ⟨k, he, hup⟩⟩)
  · exact .inl (keyRelease_wait k _)
  · exact .inr (.inr ⟨rfl, .inr ⟨rom, he⟩⟩)

/-- Settles O53: of what a step can do to `wait`, one case makes it some register's and one makes it none. -/
theorem onlyFx0aWaitsAndOnlyAKeyEdgeResolves : Obligations.OnlyFx0aWaitsAndOnlyAKeyEdgeResolves := by
  intro s t x hstep
  rcases step_wait hstep with hsame | ⟨y, hfetch, hword, hy⟩ | ⟨hnone, hends⟩
  · rw [hsame]
    exact ⟨fun h h' => (nomatch h.symm.trans h'), fun h h' => (nomatch h.symm.trans h')⟩
  · rw [hy]
    exact ⟨fun _ hx => ⟨hfetch, Option.some.inj hx ▸ hword⟩, fun _ h => nomatch h⟩
  · rw [hnone]
    exact ⟨fun _ h => (nomatch h), fun _ _ => hends⟩

end Sys2Proof.Machine
end

section
/-! Runs of events: terminated sessions (R176), waiting (R91), ended runs (R99), and which steps have a next state. -/

namespace Sys2Proof.Machine

theorem applyEvents_cons_next {e : Event} {s t : State} (es : List Event) (h : applyEvent e s = .next t) :
    applyEvents (e :: es) s = applyEvents es t := by
  simp only [applyEvents, h]

theorem applyEvents_append_next {es : List Event} {s t : State} (fs : List Event) (h : applyEvents es s = .next t) :
    applyEvents (es ++ fs) s = applyEvents fs t := by
  induction es generalizing s with
  | nil => cases h; rfl
  | cons e es ih =>
    rw [applyEvents] at h
    split at h
    · rename_i u hu
      rw [List.cons_append, applyEvents_cons_next _ hu, ih h]
    · cases h
    · cases h

/-- Events that each leave a state as it is leave it so in any number. -/
theorem applyEvents_of_each_idle {es : List Event} {s : State} (h : ∀ e ∈ es, applyEvent e s = .next s) :
    applyEvents es s = .next s := by
  induction es with
  | nil => rfl
  | cons e es ih =>
    rw [applyEvents_cons_next _ (h e List.mem_cons_self)]
    exact ih fun f hf => h f (List.mem_cons_of_mem _ hf)

theorem applyEvent_of_fault {e : Event} {s : State} (h : s.fault ≠ none) (he : ∀ rom, e ≠ .reset rom) :
    applyEvent e s = .next s := by
  cases e with
  | cycle => exact cycle_idle (.inl h)
  | tick => rw [applyEvent, tick_of_fault h]
  | keyPress k => rw [applyEvent, keyPress_of_fault k h]
  | keyRelease k => rw [applyEvent, keyRelease_of_fault k h]
  | reset rom => exact absurd rfl (he rom)

/-- Settles O45: each of the events does nothing. -/
theorem terminatedSessionIsInert : Obligations.TerminatedSessionIsInert :=
  fun _ _ h hes => applyEvents_of_each_idle fun e he => applyEvent_of_fault h (hes e he)

theorem applyEvents_cycles_of_wait {s : State} (n : Nat) (h : s.wait ≠ none) :
    applyEvents (List.replicate n .cycle) s = .next s := by
  refine applyEvents_of_each_idle fun e he => ?_
  rw [List.eq_of_mem_replicate he]
  exact cycle_idle (.inr h)

/-- Settles O46: each of the Cycles does nothing. -/
theorem cyclesWhileWaitingChangeNothing : Obligations.CyclesWhileWaitingChangeNothing :=
  fun n _ h => applyEvents_cycles_of_wait n h

/-- Settles O47: the four events that are no reset have a next state, and a reset has one when its ROM fits. -/
theorem stepStopsOnlyOnAnOversizedRom : Obligations.StepStopsOnlyOnAnOversizedRom := by
  intro s
  rw [step]
  cases s.nextEvent with
  | cycle => exact .inl (cycle_next _)
  | tick | keyPress k | keyRelease k => exact .inl ⟨_, rfl⟩
  | reset rom =>
    by_cases hrom : rom.length ≤ Config.maxRom
    · exact .inl ⟨_, resetSession_of_fits _ hrom⟩
    · exact .inr ⟨rom, rfl, Nat.lt_of_not_le hrom, resetSession_too_long _ (Nat.lt_of_not_le hrom)⟩

/-- The 12-bit address of a jump in an ended run is pc. -/
theorem State.Ended.word_eq {s : State} (h : s.Ended) :
    s.mem.wordAt s.pc.toNat = encode (.jp (BitVec.ofNat 12 s.pc.toNat)) ∧
      addressOf (BitVec.ofNat 12 s.pc.toNat) = s.pc := by
  obtain ⟨-, hpc, hword⟩ := h
  rw [Config.lastFetch] at hpc
  have hnnn : (BitVec.ofNat 12 s.pc.toNat).toNat = s.pc.toNat := by
    rw [BitVec.toNat_ofNat]
    omega
  refine ⟨?word, ?target⟩ <;> apply BitVec.eq_of_toNat_eq
  case word => rw [hword, encode, toNat_packNNN _ _ (by decide), hnnn]
  case target => rw [toNat_addressOf, hnnn]

/-- Settles O15: the jump sets pc to what it was, so only the counter moves. -/
theorem endedRunsStayInPlace : Obligations.EndedRunsStayInPlace := by
  intro s h
  obtain ⟨hword, htarget⟩ := h.word_eq
  obtain ⟨hrun, hpc, hself⟩ := h
  have hcycle : cycle s = .next (s.complete s.pc) := by
    rw [cycle_of_word hrun hpc hword, exec_jp, htarget]
  have hframe : OnlyChanges pcAndCycles s (s.complete s.pc) := (OnlyChanges.refl s).complete s.pc
  exact ⟨_, hcycle, rfl, ⟨hrun.complete _, hpc, hself⟩, hframe.of_same rfl⟩

end Sys2Proof.Machine
end

section
/-! What events do not read (spec/10_state.md R28, R34; spec/60_exceptions.md R188). A replacement changes the timers, the
stack entries and the counter; an instruction that names none of them does the same before and after it. -/

namespace Sys2Proof.Machine

/-- A replacement of the parts of a state that most instructions do not read. -/
structure Replacement where
  delay : Byte → Byte
  sound : Byte → Byte
  stack : Vector Word 16 → Vector Word 16
  moreCycles : Nat

/-- The state with the replacement made; the counter is the second summand, so that completing commutes by definition. -/
def State.replace (s : State) (r : Replacement) : State :=
  { s with dt := r.delay s.dt, st := r.sound s.st, stack := r.stack s.stack, cycles := r.moreCycles + s.cycles }

/-- The outcome with the replacement made in its next state. -/
def replaceOut (r : Replacement) : Out → Out
  | .next t => .next (t.replace r)
  | .fault e => .fault e
  | .refused e => .refused e

/-- The replacement leaves the timers. -/
def Replacement.KeepsTimers (r : Replacement) : Prop := r.delay = id ∧ r.sound = id

/-- FX07, FX15 and FX18, the instructions that read or write a timer. -/
def NamesTimer (i : Instr) : Prop := ∃ x, i = .ldVxDt x ∨ i = .ldDtVx x ∨ i = .ldStVx x

theorem State.base_replace (s : State) (r : Replacement) : (s.replace r).base = s.base := rfl

theorem State.getV_replace (s : State) (r : Replacement) (x : Reg) : (s.replace r).getV x = s.getV x := rfl

theorem storeAtIndex_replace (op : Word) (bs : List Byte) (s : State) (r : Replacement) :
    storeAtIndex op bs (s.replace r) = replaceOut r (storeAtIndex op bs s) := by
  simp only [storeAtIndex, State.base_replace]
  split <;> rfl

theorem exec_ret_replace (s : State) {r : Replacement} (hstack : r.stack = id) :
    exec .ret (s.replace r) = replaceOut r (exec .ret s) := by
  obtain ⟨delay, sound, stack, n⟩ := r
  cases hstack
  by_cases h : 0 < s.sp.val
  · rw [exec, exec, execRet_of_pos h, execRet_of_pos (s := s.replace _) h]; rfl
  · have h0 : s.sp.val = 0 := by omega
    rw [exec, exec, execRet_of_zero h0, execRet_of_zero (s := s.replace _) h0]; rfl

theorem exec_call_replace (nnn : BitVec 12) (s : State) {r : Replacement} (hstack : r.stack = id) :
    exec (.call nnn) (s.replace r) = replaceOut r (exec (.call nnn) s) := by
  obtain ⟨delay, sound, stack, n⟩ := r
  cases hstack
  by_cases h : s.sp.val < 16
  · rw [exec, exec, execCall_of_lt nnn h, execCall_of_lt (s := s.replace _) nnn h]; rfl
  · have h0 : s.sp.val = 16 := by omega
    rw [exec, exec, execCall_of_full nnn h0, execCall_of_full (s := s.replace _) nnn h0]; rfl

/-- An instruction does the same whatever stands in the parts that it does not name. -/
theorem exec_replace {i : Instr} {r : Replacement} (s : State) (htimer : NamesTimer i → r.KeepsTimers)
    (hstack : NamesStack i → r.stack = id) : exec i (s.replace r) = replaceOut r (exec i s) := by
  cases i with
  | ldVxDt x | ldDtVx x | ldStVx x =>
    obtain ⟨hdelay, hsound⟩ := htimer ⟨x, by simp⟩
    obtain ⟨delay, sound, stack, n⟩ := r
    cases hdelay
    cases hsound
    rfl
  | ret => exact exec_ret_replace s (hstack (.inl rfl))
  | call nnn => exact exec_call_replace nnn s (hstack (.inr ⟨nnn, rfl⟩))
  | drwVxVyN x y n =>
    simp only [exec, execDrwVxVyN, State.base_replace]
    split <;> rfl
  | ldBVx x => exact storeAtIndex_replace _ (decimalDigits (s.getV x)) s r
  | ldMemVx x => exact storeAtIndex_replace _ (s.regsUpTo x) s r
  | ldVxMem x =>
    simp only [exec, execLdVxMem, State.base_replace]
    split <;> rfl
  | skpVx x =>
    simp only [exec, execSkpVx, State.getV_replace]
    split <;> rfl
  | sknpVx x =>
    simp only [exec, execSknpVx, State.getV_replace]
    split <;> rfl
  | cls | jp | seVxKk | sneVxKk | seVxVy | ldVxKk | addVxKk | ldVxVy | orVxVy | andVxVy | xorVxVy | addVxVy | subVxVy
  | shrVx | subnVxVy | shlVx | sneVxVy | ldINnn | jpV0Nnn | rndVxKk | ldVxK | addIVx | ldFVx => rfl

/-- A Cycle does the same, where each instruction does. -/
theorem cycle_replace {s : State} {r : Replacement} (h : ∀ i, exec i (s.replace r) = replaceOut r (exec i s)) :
    cycle (s.replace r) = replaceOut r (cycle s) := by
  have hcongr := cycle_congr (s := s) (s' := s.replace r) rfl rfl rfl rfl
  rcases hcongr with ⟨hs, hs'⟩ | ⟨i, hs, hs'⟩ | ⟨c, op, hs, hs'⟩ <;> rw [hs, hs']
  · rfl
  · exact h i
  · rfl

theorem tick_replace (s : State) {r : Replacement} (htimer : r.KeepsTimers) : tick (s.replace r) = (tick s).replace r := by
  obtain ⟨delay, sound, stack, n⟩ := r
  obtain ⟨hdelay, hsound⟩ := htimer
  cases hdelay
  cases hsound
  by_cases h : s.fault = none
  · rw [tick_of_no_fault h, tick_of_no_fault (s := s.replace _) h]; rfl
  · rw [tick_of_fault h, tick_of_fault (s := s.replace _) h]

theorem keyPress_replace (k : Key) (s : State) (r : Replacement) : keyPress k (s.replace r) = (keyPress k s).replace r := by
  rcases keyPress_cases k s with ⟨hfault, h⟩ | ⟨hfault, hedge, h⟩ | ⟨x, hfault, hwait, hup, h⟩ <;> rw [h]
  · exact keyPress_of_fault k hfault
  · exact keyPress_of_no_edge (s := s.replace r) hfault hedge
  · exact keyPress_of_wait_of_up (s := s.replace r) hfault hwait hup

theorem keyRelease_replace (k : Key) (s : State) (r : Replacement) :
    keyRelease k (s.replace r) = (keyRelease k s).replace r := by
  by_cases h : s.fault = none
  · rw [keyRelease_of_no_fault k h, keyRelease_of_no_fault (s := s.replace r) k h]; rfl
  · rw [keyRelease_of_fault k h, keyRelease_of_fault (s := s.replace r) k h]

/-! A Tick as a replacement (R180): it commutes with the instructions that name no timer. -/

/-- What a Tick replaces. -/
def tickReplacement : Replacement := ⟨countDown, countDown, id, 0⟩

theorem tick_eq_replace {s : State} (h : s.fault = none) : tick s = s.replace tickReplacement := by
  rw [tick_of_no_fault h, State.replace, tickReplacement, Nat.zero_add]
  rfl

/-- Settles O40: a Tick is a replacement that leaves the stack. -/
theorem ticksCommuteWithOtherInstructions : Obligations.TicksCommuteWithOtherInstructions := by
  intro i s t hfault hi hexec ht
  have hnames : ¬NamesTimer i := by
    rintro ⟨x, hx⟩
    obtain ⟨h1, h2, h3⟩ := hi x
    exact hx.elim h1 fun hx => hx.elim h2 h3
  rw [tick_eq_replace hfault, tick_eq_replace ht, exec_replace s (fun h => absurd h hnames) (fun _ => rfl), hexec]
  rfl

/-! More cycles counted, as a replacement (R34). -/

/-- The replacement that counts `n` more cycles. -/
def countReplacement (n : Nat) : Replacement := ⟨id, id, id, n⟩

theorem State.replace_count (s : State) (n : Nat) :
    s.replace (countReplacement n) = { s with cycles := s.cycles + n } := by
  rw [State.replace, countReplacement, Nat.add_comm]
  rfl

theorem replaceOut_count (n : Nat) (o : Out) : replaceOut (countReplacement n) o = addCycles n o := by
  cases o with
  | next t => exact congrArg Host.Outcome.next (t.replace_count n)
  | fault e => rfl
  | refused e => rfl

/-- Settles O56: counting more is a replacement that leaves the timers and the stack, so every event commutes with it. -/
theorem cyclesCounterIsNeverRead : Obligations.CyclesCounterIsNeverRead := by
  intro e n s he
  have hkeeps : (countReplacement n).KeepsTimers := ⟨rfl, rfl⟩
  rw [← s.replace_count n, ← replaceOut_count]
  cases e with
  | cycle => exact cycle_replace fun i => exec_replace s (fun _ => hkeeps) (fun _ => rfl)
  | tick => exact congrArg Host.Outcome.next (tick_replace s hkeeps)
  | keyPress k => exact congrArg Host.Outcome.next (keyPress_replace k s _)
  | keyRelease k => exact congrArg Host.Outcome.next (keyRelease_replace k s _)
  | reset rom => exact absurd rfl (he rom)

/-! Another stack in the entries not in use, as a replacement (R28). -/

/-- The replacement of all stack entries. -/
def stackReplacement (w : Vector Word 16) : Replacement := ⟨id, id, fun _ => w, 0⟩

theorem State.replace_stack (s : State) (w : Vector Word 16) : s.replace (stackReplacement w) = { s with stack := w } := by
  rw [State.replace, stackReplacement, Nat.zero_add]
  rfl

/-- The two stacks agree in the entries that a state has in use. -/
def AgreeInUse (s : State) (w : Vector Word 16) : Prop := ∀ j : Fin 16, j.val < s.sp.val → w[j.val] = s.stack[j.val]

theorem sameButDeadEntries_iff {s s' : State} :
    SameButDeadEntries s s' ↔ ∃ w, s' = s.replace (stackReplacement w) ∧ AgreeInUse s w := by
  simp only [State.replace_stack]
  refine ⟨fun ⟨heq, hlive⟩ => ⟨s'.stack, heq, hlive⟩, ?_⟩
  rintro ⟨w, rfl, hlive⟩
  exact ⟨rfl, hlive⟩

theorem AgreeInUse.congr {s t : State} {w : Vector Word 16} (h : AgreeInUse s w) (hsp : t.sp = s.sp)
    (hstack : t.stack = s.stack) : AgreeInUse t w := by
  rw [AgreeInUse, hsp, hstack]
  exact h

/-- The outcomes are next states that agree but for dead entries. -/
def OutSameButDead (o o' : Out) : Prop := ∃ t t', o = .next t ∧ o' = .next t' ∧ SameButDeadEntries t t'

theorem outSameButDead_replace {t : State} {w : Vector Word 16} (h : AgreeInUse t w) :
    OutSameButDead (.next t) (.next (t.replace (stackReplacement w))) :=
  ⟨_, _, rfl, rfl, sameButDeadEntries_iff.mpr ⟨w, rfl, h⟩⟩

theorem exec_ret_sameButDead {s : State} {w : Vector Word 16} (h : AgreeInUse s w) :
    OutSameButDead (exec .ret s) (exec .ret (s.replace (stackReplacement w))) := by
  by_cases hsp : 0 < s.sp.val
  · have htop : w[s.sp.val - 1]'(by omega) = s.stack[s.sp.val - 1]'(by omega) :=
      h ⟨s.sp.val - 1, by omega⟩ (Nat.sub_lt hsp Nat.one_pos)
    have hlive : AgreeInUse (s.popped.complete (s.stack[s.sp.val - 1]'(by omega))) w :=
      fun j hj => h j (Nat.lt_of_lt_of_le hj (Nat.sub_le _ _))
    rw [exec, exec, execRet_of_pos hsp, execRet_of_pos (s := s.replace _) hsp]
    show OutSameButDead _ (.next ((s.replace (stackReplacement w)).popped.complete (w[s.sp.val - 1]'(by omega))))
    rw [htop]
    exact outSameButDead_replace hlive
  · have h0 : s.sp.val = 0 := by omega
    rw [exec, exec, execRet_of_zero h0, execRet_of_zero (s := s.replace _) h0]
    exact outSameButDead_replace (h.congr (t := s.setFault _) rfl rfl)

theorem exec_call_sameButDead (nnn : BitVec 12) {s : State} {w : Vector Word 16} (h : AgreeInUse s w) :
    OutSameButDead (exec (.call nnn) s) (exec (.call nnn) (s.replace (stackReplacement w))) := by
  by_cases hsp : s.sp.val < 16
  · rw [exec, exec, execCall_of_lt nnn hsp, execCall_of_lt (s := s.replace _) nnn hsp]
    have hlive : AgreeInUse ((s.pushed (s.pc + 2) hsp).complete (addressOf nnn)) (w.set s.sp.val (s.pc + 2) hsp) := by
      intro j hj
      have hlt : j.val < s.sp.val + 1 := hj
      rw [State.complete_stack, State.getElem_stack_pushed, Vector.getElem_set]
      simp only [eq_comm (a := s.sp.val)]
      split
      · rfl
      · exact h j (by omega)
    exact outSameButDead_replace hlive
  · have h0 : s.sp.val = 16 := by omega
    rw [exec, exec, execCall_of_full nnn h0, execCall_of_full (s := s.replace _) nnn h0]
    exact outSameButDead_replace (h.congr (t := s.setFault _) rfl rfl)

theorem exec_sameButDead (i : Instr) {s : State} {w : Vector Word 16} (h : AgreeInUse s w) :
    OutSameButDead (exec i s) (exec i (s.replace (stackReplacement w))) := by
  by_cases hi : NamesStack i
  · rcases hi with rfl | ⟨nnn, rfl⟩
    · exact exec_ret_sameButDead h
    · exact exec_call_sameButDead nnn h
  · rw [exec_replace s (fun _ => ⟨rfl, rfl⟩) (fun h => absurd h hi)]
    obtain ⟨t, ht⟩ := exec_next i s
    obtain ⟨hsp, hstack⟩ := exec_stack hi ht
    rw [ht]
    exact outSameButDead_replace (h.congr hsp hstack)

theorem cycle_sameButDead {s : State} {w : Vector Word 16} (h : AgreeInUse s w) :
    OutSameButDead (cycle s) (cycle (s.replace (stackReplacement w))) := by
  have hcongr := cycle_congr (s := s) (s' := s.replace (stackReplacement w)) rfl rfl rfl rfl
  rcases hcongr with ⟨hs, hs'⟩ | ⟨i, hs, hs'⟩ | ⟨c, op, hs, hs'⟩ <;> rw [hs, hs']
  · exact outSameButDead_replace h
  · exact exec_sameButDead i h
  · exact outSameButDead_replace (h.congr (t := s.setFault _) rfl rfl)

/-- The three events that are neither a Cycle nor a reset leave the stack. -/
theorem tick_stack (s : State) : (tick s).sp = s.sp ∧ (tick s).stack = s.stack := by
  by_cases h : s.fault = none
  · rw [tick_of_no_fault h]; exact ⟨rfl, rfl⟩
  · rw [tick_of_fault h]; exact ⟨rfl, rfl⟩

theorem keyPress_stack (k : Key) (s : State) : (keyPress k s).sp = s.sp ∧ (keyPress k s).stack = s.stack := by
  rcases keyPress_cases k s with ⟨-, h⟩ | ⟨-, -, h⟩ | ⟨x, -, -, -, h⟩ <;> rw [h] <;> exact ⟨rfl, rfl⟩

theorem keyRelease_stack (k : Key) (s : State) : (keyRelease k s).sp = s.sp ∧ (keyRelease k s).stack = s.stack := by
  by_cases h : s.fault = none
  · rw [keyRelease_of_no_fault k h]; exact ⟨rfl, rfl⟩
  · rw [keyRelease_of_fault k h]; exact ⟨rfl, rfl⟩

theorem applyEvent_sameButDead {e : Event} {s t : State} {w : Vector Word 16} (h : AgreeInUse s w)
    (ht : applyEvent e s = .next t) : OutSameButDead (applyEvent e s) (applyEvent e (s.replace (stackReplacement w))) := by
  cases e with
  | cycle => exact cycle_sameButDead h
  | tick =>
    rw [applyEvent, applyEvent, tick_replace s ⟨rfl, rfl⟩]
    exact outSameButDead_replace (h.congr (tick_stack s).1 (tick_stack s).2)
  | keyPress k =>
    rw [applyEvent, applyEvent, keyPress_replace]
    exact outSameButDead_replace (h.congr (keyPress_stack k s).1 (keyPress_stack k s).2)
  | keyRelease k =>
    rw [applyEvent, applyEvent, keyRelease_replace]
    exact outSameButDead_replace (h.congr (keyRelease_stack k s).1 (keyRelease_stack k s).2)
  | reset rom =>
    have hsame : applyEvent (.reset rom) (s.replace (stackReplacement w)) = applyEvent (.reset rom) s := rfl
    exact ⟨t, t, ht, hsame.trans ht, rfl, fun _ _ => rfl⟩

/-- Settles O57: an event reads no entry at or above sp, since 00EE reads the one below it and 2NNN writes the one at it. -/
theorem deadStackEntriesAreUnobservable : Obligations.DeadStackEntriesAreUnobservable := by
  intro s s' t hsame hstep
  obtain ⟨w, rfl, hlive⟩ := sameButDeadEntries_iff.mp hsame
  have hlive' : AgreeInUse s.dropEvent w := hlive
  obtain ⟨u, u', hu, hu', hdead⟩ := applyEvent_sameButDead hlive' hstep
  obtain rfl := Host.Outcome.next.inj (hstep.symm.trans hu)
  exact ⟨u', hu', hdead⟩

end Sys2Proof.Machine
end

section
/-! Control flow (spec/41_control_flow.md): BNNN, and a call with the return from it. -/

namespace Sys2Proof.Machine

theorem exec_jpV0Nnn (nnn : BitVec 12) (s : State) :
    exec (.jpV0Nnn nnn) s = .next (s.complete (offsetTarget (s.getV V0) nnn)) := rfl

/-- Settles O11: the sum of a byte and a 12-bit address fits 16 bits. -/
theorem jumpWithOffsetAddsV0 : Obligations.JumpWithOffsetAddsV0 := fun nnn s =>
  ⟨_, exec_jpV0Nnn nnn s, toNat_offsetTarget _ nnn, s.complete_cycles _, (OnlyChanges.refl s).complete _⟩

/-- Settles O12: sp is the number of the entry that the push writes. -/
theorem callPushesTheNextAddress : Obligations.CallPushesTheNextAddress := by
  intro nnn s j hj
  have hsp : s.sp.val < 16 := hj ▸ j.isLt
  have hentry : (⟨s.sp.val, hsp⟩ : Fin 16) = j := Fin.ext hj
  refine ⟨_, execCall_of_lt nnn hsp, toNat_addressOf nnn, ?entry, rfl, rfl, ?frame⟩
  case entry => rw [State.complete_stack, State.getElem_stack_pushed, if_pos hj.symm]
  case frame =>
    have hframe := (OnlyChanges.pushed s (s.pc + 2) hsp).complete (addressOf nnn)
    rw [hentry] at hframe
    exact hframe.mono (by simp [pcAndCycles])

/-- Settles O13: the entry popped is the one below sp. -/
theorem returnPopsIntoPc : Obligations.ReturnPopsIntoPc := by
  intro s j hj
  have hsp : 0 < s.sp.val := by omega
  have htop : s.sp.val - 1 = j.val := by omega
  refine ⟨_, execRet_of_pos hsp, ?pc, htop, rfl, ?frame⟩
  case pc => simp only [State.complete_pc, htop]
  case frame => exact ((OnlyChanges.popped s).complete _).mono (by simp [pcAndCycles])

/-- Settles O14: the return pops the entry that the call pushed, and neither touches an entry below it. -/
theorem callThenReturnContinuesAfterTheCall : Obligations.CallThenReturnContinuesAfterTheCall := by
  intro nnn s t u hsp hcall hspu hstack
  obtain ⟨t', hcall', -, hentry, hspt, -, hframe⟩ := callPushesTheNextAddress nnn s ⟨s.sp.val, hsp⟩ rfl
  obtain rfl := Host.Outcome.next.inj (hcall.symm.trans hcall')
  have hspu' : u.sp.val = s.sp.val + 1 := by rw [hspu, hspt]
  obtain ⟨w, hret, hpc, hspw, -, hframe'⟩ := returnPopsIntoPc u ⟨s.sp.val, hsp⟩ hspu'
  refine ⟨w, hret, ?pc, Fin.ext hspw, fun j hj => ?below⟩
  case pc => simp only [hpc, hstack, hentry]
  case below =>
    have hu : w.stack[j.val] = u.stack[j.val] := hframe' (.entry j) (by simp)
    have ht : t.stack[j.val] = s.stack[j.val] := hframe (.entry j) (by simp [Fin.ext_iff, Nat.ne_of_lt hj])
    simp only [hu, hstack, ht]

theorem exec_skpVx_of_key {s : State} {x : Reg} {k : Key} (h : (s.getV x).toNat = k.val) :
    exec (.skpVx x) s = .next (s.skipIf (s.keyDown k)) := by
  have hlt : (s.getV x).toNat < 16 := h ▸ k.isLt
  have hk : (⟨(s.getV x).toNat, hlt⟩ : Key) = k := Fin.ext h
  rw [exec, execSkpVx_of_lt x hlt, hk]

theorem exec_sknpVx_of_key {s : State} {x : Reg} {k : Key} (h : (s.getV x).toNat = k.val) :
    exec (.sknpVx x) s = .next (s.skipIf (!s.keyDown k)) := by
  have hlt : (s.getV x).toNat < 16 := h ▸ k.isLt
  have hk : (⟨(s.getV x).toNat, hlt⟩ : Key) = k := Fin.ext h
  rw [exec, execSknpVx_of_lt x hlt, hk]

/-- Settles O17: both are skips, on the named key being down or up. -/
theorem keySkipsTestTheNamedKey : Obligations.KeySkipsTestTheNamedKey := fun _ _ _ h =>
  ⟨exec_moves_pc_of_skipIf (exec_skpVx_of_key h) Iff.rfl,
    exec_moves_pc_of_skipIf (exec_sknpVx_of_key h) (Bool.not_eq_true' _).to_iff⟩

end Sys2Proof.Machine
end

section
/-! The ALU (spec/43_alu.md): the three bitwise operations, the opcodes that write VF, and the random byte. -/

namespace Sys2Proof.Machine

theorem exec_orVxVy (x y : Reg) (s : State) :
    exec (.orVxVy x y) s = .next (s.setV x (s.getV x ||| s.getV y)).fallThrough := rfl

theorem exec_andVxVy (x y : Reg) (s : State) :
    exec (.andVxVy x y) s = .next (s.setV x (s.getV x &&& s.getV y)).fallThrough := rfl

theorem exec_xorVxVy (x y : Reg) (s : State) :
    exec (.xorVxVy x y) s = .next (s.setV x (s.getV x ^^^ s.getV y)).fallThrough := rfl

/-- Settles O19: each is the write of Vx alone. -/
theorem logicWorksBitByBit : Obligations.LogicWorksBitByBit := by
  intro x y s
  refine ⟨?or, ?and, ?xor⟩
  case or =>
    obtain ⟨t, hexec, hvalue, hrest⟩ := exec_writes_one_of_setV (exec_orVxVy x y s)
    exact ⟨t, hexec, fun k _ => by rw [hvalue, BitVec.getLsbD_or], hrest⟩
  case and =>
    obtain ⟨t, hexec, hvalue, hrest⟩ := exec_writes_one_of_setV (exec_andVxVy x y s)
    exact ⟨t, hexec, fun k _ => by rw [hvalue, BitVec.getLsbD_and], hrest⟩
  case xor =>
    obtain ⟨t, hexec, hvalue, hrest⟩ := exec_writes_one_of_setV (exec_xorVxVy x y s)
    exact ⟨t, hexec, fun k _ => by rw [hvalue, BitVec.getLsbD_xor], hrest⟩

/-- An instruction that answers a flag and a result and falls through: Vx is the result, VF the flag where X is not F, and
nothing else changes besides pc and the counter. -/
theorem exec_writes_flag_and_result {i : Instr} {s : State} {x : Reg} {flag result : Byte}
    (hexec : exec i s = .next (s.writeFlagged x flag result).fallThrough) :
    ∃ t, exec i s = .next t ∧ t.getV x = result ∧ (x ≠ 15 → t.getV 15 = flag) ∧ t.pc = s.pc + 2 ∧
      t.cycles = s.cycles + 1 ∧ OnlyChanges (.reg x :: .reg 15 :: pcAndCycles) s t := by
  refine ⟨_, hexec, ?result, fun hx => ?flag, rfl, rfl, ?frame⟩
  case result => rw [State.getV_fallThrough, State.getV_writeFlagged, if_pos rfl]
  case flag =>
    have hne : (15 : Reg) ≠ x := hx.symm
    rw [State.getV_fallThrough, State.getV_writeFlagged, if_neg hne, if_pos (c := 15 = VF) rfl]
  case frame => exact (OnlyChanges.writeFlagged s x flag result).complete _

theorem exec_addVxVy (x y : Reg) (s : State) : exec (.addVxVy x y) s =
    .next (s.writeFlagged x (carryFlag (s.getV x) (s.getV y)) (s.getV x + s.getV y)).fallThrough := rfl

theorem exec_subVxVy (x y : Reg) (s : State) : exec (.subVxVy x y) s =
    .next (s.writeFlagged x (greaterFlag (s.getV x) (s.getV y)) (s.getV x - s.getV y)).fallThrough := rfl

theorem exec_subnVxVy (x y : Reg) (s : State) : exec (.subnVxVy x y) s =
    .next (s.writeFlagged x (greaterFlag (s.getV y) (s.getV x)) (s.getV y - s.getV x)).fallThrough := rfl

theorem exec_shrVx (x y : Reg) (s : State) : exec (.shrVx x y) s =
    .next (s.writeFlagged x (lowBitFlag (s.getV x)) (s.getV x >>> 1)).fallThrough := rfl

theorem exec_shlVx (x y : Reg) (s : State) : exec (.shlVx x y) s =
    .next (s.writeFlagged x (highBitFlag (s.getV x)) (s.getV x <<< 1)).fallThrough := rfl

theorem flagByte_decide (P : Prop) [Decidable P] : flagByte (decide P) = if P then 1 else 0 := by
  simp only [flagByte, decide_eq_true_eq]

/-- The difference of two bytes is the difference of their values, reduced modulo 256. -/
theorem toNat_byte_sub (a b : Byte) : ((a - b).toNat : Int) = ((a.toNat : Int) - (b.toNat : Int)) % 256 := by
  have := a.isLt
  have := b.isLt
  rw [BitVec.toNat_sub]
  omega

/-- Settles O20: each writes a flag and then a result. -/
theorem addAndSubtractSetVF : Obligations.AddAndSubtractSetVF := by
  intro x y s
  refine ⟨?add, ?sub, ?subn⟩
  case add =>
    obtain ⟨t, hexec, hvalue, hflag, hrest⟩ := exec_writes_flag_and_result (exec_addVxVy x y s)
    exact ⟨t, hexec, hvalue ▸ BitVec.toNat_add _ _, fun hx => (hflag hx).trans (flagByte_decide _), hrest⟩
  case sub =>
    obtain ⟨t, hexec, hvalue, hflag, hrest⟩ := exec_writes_flag_and_result (exec_subVxVy x y s)
    exact ⟨t, hexec, hvalue ▸ toNat_byte_sub _ _, fun hx => (hflag hx).trans (flagByte_decide _), hrest⟩
  case subn =>
    obtain ⟨t, hexec, hvalue, hflag, hrest⟩ := exec_writes_flag_and_result (exec_subnVxVy x y s)
    exact ⟨t, hexec, hvalue ▸ toNat_byte_sub _ _, fun hx => (hflag hx).trans (flagByte_decide _), hrest⟩

theorem getLsbD_eq_decide (a : Byte) (k : Nat) : a.getLsbD k = decide (a.toNat / 2 ^ k % 2 = 1) :=
  Nat.testBit_eq_decide_div_mod_eq

theorem toNat_lowBitFlag (a : Byte) : (lowBitFlag a).toNat = a.toNat % 2 := by
  rw [lowBitFlag, getLsbD_eq_decide, flagByte_decide]
  split
  · show 1 = _; omega
  · show 0 = _; omega

theorem highBitFlag_eq (a : Byte) : highBitFlag a = if 128 ≤ a.toNat then 1 else 0 := by
  have := a.isLt
  rw [highBitFlag, getLsbD_eq_decide, flagByte_decide]
  exact if_congr (by omega) rfl rfl

theorem toNat_byte_shiftLeft_one (a : Byte) : (a <<< 1).toNat = 2 * a.toNat % 256 := by
  rw [BitVec.toNat_shiftLeft, Nat.shiftLeft_eq, Nat.mul_comm]

theorem toNat_byte_shiftRight_one (a : Byte) : (a >>> 1).toNat = a.toNat / 2 := by
  rw [BitVec.toNat_ushiftRight, Nat.shiftRight_eq_div_pow]

/-- Settles O21: each writes a flag and then a result, both of Vx alone. -/
theorem shiftsMoveOneBitIntoVF : Obligations.ShiftsMoveOneBitIntoVF := by
  intro x y s
  refine ⟨?right, ?left⟩
  case right =>
    obtain ⟨t, hexec, hvalue, hflag, hrest⟩ := exec_writes_flag_and_result (exec_shrVx x y s)
    exact ⟨t, hexec, hvalue ▸ toNat_byte_shiftRight_one _, fun hx => hflag hx ▸ toNat_lowBitFlag _, hrest⟩
  case left =>
    obtain ⟨t, hexec, hvalue, hflag, hrest⟩ := exec_writes_flag_and_result (exec_shlVx x y s)
    exact ⟨t, hexec, hvalue ▸ toNat_byte_shiftLeft_one _, fun hx => (hflag hx).trans (highBitFlag_eq _), hrest⟩

theorem exec_rndVxKk (x : Reg) (kk : Byte) (s : State) :
    exec (.rndVxKk x kk) s = .next (s.draw.2.setV x (s.draw.1 &&& kk)).fallThrough := rfl

/-- Settles O22: the draw moves its counter, and the write is that of Vx alone. -/
theorem randomByteIsMasked : Obligations.RandomByteIsMasked := by
  intro x kk s
  refine ⟨_, exec_rndVxKk x kk s, fun k _ => ?bits, rfl, rfl, rfl, ?frame⟩
  case bits => rw [State.getV_fallThrough, State.getV_setV_same, State.draw_fst, BitVec.getLsbD_and]
  case frame =>
    exact (((OnlyChanges.draw s).trans (OnlyChanges.setV _ x _)).complete _).mono (by simp [pcAndCycles])

end Sys2Proof.Machine
end

section
/-! The index register and memory (spec/44_index_memory.md): the sums of FX1E and FX29, and the accesses through I. -/

namespace Sys2Proof.Machine

theorem exec_addIVx (x : Reg) (s : State) :
    exec (.addIVx x) s = .next (s.setI (indexPlus s.i (s.getV x))).fallThrough := rfl

theorem exec_ldFVx (x : Reg) (s : State) :
    exec (.ldFVx x) s = .next (s.setI (glyphAddress (s.getV x))).fallThrough := rfl

theorem toNat_indexPlus (i : Word) (b : Byte) : (indexPlus i b).toNat = (i.toNat + b.toNat) % 0x10000 := by
  rw [indexPlus, BitVec.toNat_add, BitVec.toNat_setWidth_of_le (by decide)]

theorem toNat_glyphAddress (b : Byte) : (glyphAddress b).toNat = 5 * b.toNat := by
  have := b.isLt
  rw [glyphAddress, BitVec.toNat_ofNat]
  omega

/-- Settles O24: both write I alone. -/
theorem indexArithmetic : Obligations.IndexArithmetic := by
  intro x s
  refine ⟨?add, ?glyph⟩
  case add =>
    obtain ⟨t, hexec, hvalue, hrest⟩ := exec_writes_index_of_setI (exec_addIVx x s)
    exact ⟨t, hexec, hvalue ▸ toNat_indexPlus _ _, hrest⟩
  case glyph =>
    obtain ⟨t, hexec, hvalue, hrest⟩ := exec_writes_index_of_setI (exec_ldFVx x s)
    exact ⟨t, hexec, hvalue ▸ toNat_glyphAddress _, hrest⟩

/-- An instruction that stores bytes from I on, all of them below 4096, leaves them there and changes nothing else besides pc
and the counter. -/
theorem exec_stores_of_storeAtIndex {i : Instr} {s : State} {op : Word} {bs : List Byte}
    (hexec : exec i s = storeAtIndex op bs s) (hwf : s.mem.wf = true) (hin : s.i.toNat + bs.length ≤ 4096) :
    ∃ t, exec i s = .next t ∧ (∀ k < bs.length, t.mem.peek (s.i.toNat + k) = bs.getD k 0) ∧ t.pc = s.pc + 2 ∧
      t.cycles = s.cycles + 1 ∧ OnlyChanges (bytesFrom s.i.toNat bs.length ++ pcAndCycles) s t := by
  refine ⟨_, hexec.trans (storeAtIndex_inside op hin), fun k hk => ?bytes, rfl, rfl, ?frame⟩
  case bytes =>
    have hpeek := Memory.peek_store (s.i.toNat + k) hwf hin
    rwa [if_pos (by omega), Nat.add_sub_cancel_left] at hpeek
  case frame => exact (OnlyChanges.store hwf hin).complete _

theorem exec_ldBVx (x : Reg) (s : State) :
    exec (.ldBVx x) s = storeAtIndex (encode (.ldBVx x)) (decimalDigits (s.getV x)) s := rfl

theorem exec_ldMemVx (x : Reg) (s : State) :
    exec (.ldMemVx x) s = storeAtIndex (encode (.ldMemVx x)) (s.regsUpTo x) s := rfl

/-- A decimal digit of a byte fits a byte. -/
theorem toNat_digit {d : Nat} (h : d < 10) : (BitVec.ofNat 8 d).toNat = d := by
  rw [BitVec.toNat_ofNat]
  omega

/-- Settles O25: the three bytes stored are the digits, each of which fits a byte. -/
theorem decimalDigitsAreStoredAtI : Obligations.DecimalDigitsAreStoredAtI := by
  intro x s hwf hin
  have := (s.getV x).isLt
  obtain ⟨t, hexec, hbytes, hrest⟩ :=
    exec_stores_of_storeAtIndex (exec_ldBVx x s) hwf (by rw [length_decimalDigits]; omega)
  refine ⟨t, hexec, ?hundreds, ?tens, ?ones, hrest⟩
  case hundreds => exact (congrArg BitVec.toNat (hbytes 0 (by simp))).trans (toNat_digit (by omega))
  case tens => exact (congrArg BitVec.toNat (hbytes 1 (by simp))).trans (toNat_digit (by omega))
  case ones => exact (congrArg BitVec.toNat (hbytes 2 (by simp))).trans (toNat_digit (by omega))

/-- Settles O26: the bytes stored are the registers V0 to VX. -/
theorem registersAreStoredAtI : Obligations.RegistersAreStoredAtI := by
  intro x s hwf hin
  have hlen := s.length_regsUpTo x
  obtain ⟨t, hexec, hbytes, hrest⟩ := exec_stores_of_storeAtIndex (exec_ldMemVx x s) hwf (by rw [hlen]; omega)
  rw [hlen] at hrest
  refine ⟨t, hexec, fun r hr => ?_, hrest⟩
  rw [hbytes r.val (by rw [hlen]; omega), List.getD, s.getElem_regsUpTo x r hr, Option.getD_some]

/-- Settles O27: the registers up to VX are replaced by the bytes loaded. -/
theorem registersAreLoadedFromI : Obligations.RegistersAreLoadedFromI := by
  intro x s hin
  have hin' : s.base + countUpTo x ≤ Config.memorySize := hin
  refine ⟨_, execLdVxMem_inside x hin', fun r hr => ?loaded, rfl, rfl, ?frame⟩
  case loaded =>
    rw [State.getV_fallThrough, State.getV_setRegs, getElem_withFirstRegs, List.getD,
      Memory.getElem_load _ _ (countUpTo x) _ (Nat.lt_succ_of_le hr), Option.getD_some, State.base]
  case frame => exact (OnlyChanges.setRegs s x fun _ hr => withFirstRegs_load_of_gt s.v _ _ hr).complete _

/-- Settles O28: each register is loaded from the byte that it was stored in. -/
theorem storeThenLoadRestoresRegisters : Obligations.StoreThenLoadRestoresRegisters := by
  intro x s t u hwf hin hstore hi hmem
  obtain ⟨t', hstore', hstored, -⟩ := registersAreStoredAtI x s hwf hin
  obtain rfl := Host.Outcome.next.inj (hstore.symm.trans hstore')
  obtain ⟨w, hload, hloaded, -⟩ := registersAreLoadedFromI x u (by rwa [hi])
  exact ⟨w, hload, fun r hr => by rw [hloaded r hr, hi, hmem, hstored r hr]⟩

/-- Settles O9: the next pc is I, where the first two of the registers stored are V0 and V1. -/
theorem storedBytesAreFetchedNext : Obligations.StoredBytesAreFetchedNext := by
  intro s x hwf hx hbase hin
  obtain ⟨t, hexec, hstored, hpc, -⟩ := registersAreStoredAtI x s hwf hin
  have hpcBase : t.pc.toNat = s.base := by
    rw [hpc, hbase]
    exact toNat_add_of_fetchable (by rw [Config.lastFetch]; omega) 2 (by decide)
  have hfetchable : t.pc.toNat ≤ Config.lastFetch := by
    rw [hpcBase, Config.lastFetch]
    omega
  refine ⟨t, _, hexec, fetch_of_le hfetchable, ?_⟩
  have h0 : t.mem.peek s.base = s.getV 0 := hstored 0 (Nat.zero_le _)
  have h1 : t.mem.peek (s.base + 1) = s.getV 1 := hstored 1 hx
  rw [Memory.wordAt, toNat_wordOfBytes, hpcBase, h0, h1]

end Sys2Proof.Machine
end

section
/-! DXYN (spec/45_display.md R151) and the display output (spec/10_state.md R32, R38). -/

namespace Sys2Proof.Machine

theorem collisionFlag_true : collisionFlag true = 1 := rfl

theorem collisionFlag_false : collisionFlag false = 0 := rfl

/-- Settles O30: a draw that stays below 4096 inverts the pixels under its sprite, and there is a collision exactly where one
of them was lit, which is the pixel that goes out. -/
theorem drawXorsTheSpriteIntoTheDisplay : Obligations.DrawXorsTheSpriteIntoTheDisplay := by
  intro x y n s hin
  obtain ⟨hpixels, hcollision⟩ := inverts_drawn s x y n
  refine ⟨_, execDrwVxVyN_inside x y n hin, hpixels, ?out, ?none, rfl, rfl, ?frame⟩
  case out =>
    rintro ⟨row, col, hlit, hout⟩
    have hxor : (true ^^ spriteCovers s x y n row col) = false := hlit ▸ (hpixels row col).symm.trans hout
    have hcover : spriteCovers s x y n row col = true := by simpa using hxor
    have hhit : (s.drawn x y n).collision = true := hcollision.mpr (.inr ⟨row, col, hcover, hlit⟩)
    exact (State.getV_setV_same _ _ _).trans (hhit ▸ collisionFlag_true)
  case none =>
    intro hstay
    have hmiss : (s.drawn x y n).collision = false := by
      refine Bool.eq_false_iff.mpr fun hhit => ?_
      rcases hcollision.mp hhit with hbefore | ⟨row, col, hcover, hlit⟩
      · exact absurd hbefore Bool.false_ne_true
      · have hxor : (s.disp.pixel row col ^^ spriteCovers s x y n row col) = true :=
          (hpixels row col).symm.trans (hstay row col hlit)
        have hlit' : s.disp.pixel row col = true := hlit
        rw [hlit', hcover] at hxor
        exact absurd hxor (by decide)
    exact (State.getV_setV_same _ _ _).trans (hmiss ▸ collisionFlag_false)
  case frame => exact (OnlyChanges.drawn s _ _).complete _

/-- The sprite of a draw depends on I, memory and the two coordinates. -/
theorem spriteCovers_congr {s u : State} {x y : Reg} (n : Fin 16) (hi : u.i = s.i) (hmem : u.mem = s.mem)
    (hx : u.getV x = s.getV x) (hy : u.getV y = s.getV y) : spriteCovers u x y n = spriteCovers s x y n := by
  funext row col
  simp only [spriteCovers, State.base, hi, hmem, hx, hy]

/-- Settles O31: the two draws invert the same pixels, so each pixel is inverted twice or not at all; the second puts out
what the first lit. -/
theorem drawTwiceRestoresTheDisplay : Obligations.DrawTwiceRestoresTheDisplay := by
  intro x y n s t u hin hdraw hdisp hi hmem hx hy
  obtain ⟨t', hdraw', hfirst, -⟩ := drawXorsTheSpriteIntoTheDisplay x y n s hin
  obtain rfl := Host.Outcome.next.inj (hdraw.symm.trans hdraw')
  obtain ⟨w, hagain, hsecond, hout, -⟩ := drawXorsTheSpriteIntoTheDisplay x y n u (by rwa [hi])
  rw [spriteCovers_congr n hi hmem hx hy, hdisp] at hsecond
  rw [hdisp] at hout
  have hrestored (row : Fin 32) (col : Fin 64) : w.disp.pixel row col = s.disp.pixel row col := by
    rw [hsecond, hfirst, Bool.xor_assoc, Bool.xor_self, Bool.xor_false]
  refine ⟨w, hagain, Display.ext_pixel hrestored, ?_⟩
  rintro ⟨row, col, hcover, hoff⟩
  exact hout ⟨row, col, by rw [hfirst, hcover, hoff]; rfl, (hrestored row col).trans hoff⟩

/-- Rows of one length, laid one after another: the element at a row and a column. -/
theorem getElem?_flatMap_of_length {α β : Type} {f : α → List β} {n : Nat} (hf : ∀ a, (f a).length = n) :
    ∀ (l : List α) (r c : Nat), c < n → (l.flatMap f)[r * n + c]? = l[r]?.bind fun a => (f a)[c]?
  | [], r, c, _ => by simp
  | a :: l, 0, c, hc => by
    rw [List.flatMap_cons, Nat.zero_mul, Nat.zero_add, List.getElem?_append_left (by rwa [hf])]
    rfl
  | a :: l, r + 1, c, hc => by
    have hindex : (r + 1) * n + c = n + (r * n + c) := by rw [Nat.succ_mul]; omega
    rw [List.flatMap_cons, List.getElem?_append_right (by rw [hf, hindex]; omega), hf, hindex, Nat.add_sub_cancel_left,
      getElem?_flatMap_of_length hf l r c hc]
    rfl

/-- Settles O32: the output is 32 rows of 64 pixels, laid one after another. -/
theorem displayOutputIsRowMajor : Obligations.DisplayOutputIsRowMajor := by
  intro s
  have hrows (row : Fin 32) : ((List.finRange 64).map fun col => s.disp.pixel row col).length = 64 := by
    rw [List.length_map, List.length_finRange]
  refine ⟨?length, fun row col => ?element⟩
  case length => simp [displayOut]
  case element =>
    rw [displayOut, getElem?_flatMap_of_length hrows _ _ _ col.isLt]
    simp

end Sys2Proof.Machine
end

section
/-! Waiting for a key, key events and timer ticks (spec/46_input_timers.md, spec/60_exceptions.md R180 to R186). -/

namespace Sys2Proof.Machine

theorem exec_ldVxK (x : Reg) (s : State) : exec (.ldVxK x) s = .next (s.setWait (some x)) := rfl

/-- Settles O34: the meaning of FX0A is the write of `wait` alone. -/
theorem waitForKeySetsOnlyWait : Obligations.WaitForKeySetsOnlyWait := fun x s =>
  ⟨_, exec_ldVxK x s, rfl, OnlyChanges.setWait s (some x)⟩

/-- Settles O35: the Cycles change nothing while the wait lasts, the press resolves it, and `wait` is none as it was before
the FX0A. -/
theorem waitForKeyCompletesAtAKeyPress : Obligations.WaitForKeyCompletesAtAKeyPress := by
  rintro x k n s t ⟨hfault, hnone⟩ hup hexec
  obtain rfl := Host.Outcome.next.inj ((exec_ldVxK x s).symm.trans hexec)
  have hidle : applyEvents (List.replicate n .cycle) (s.setWait (some x)) = .next (s.setWait (some x)) :=
    applyEvents_cycles_of_wait n (Option.some_ne_none x)
  obtain ⟨u, hpress, hdown, hvalue, hpc, hcycles, hwait, hframe⟩ :=
    keyPressResolvesAWait x k (s.setWait (some x)) hfault rfl hup
  refine ⟨hidle, u, ?run, hvalue, hdown, hwait, hpc, hcycles, ?frame⟩
  case run => rw [applyEvents_append_next _ hidle, applyEvents_cons_next _ hpress, applyEvents]
  case frame =>
    have hall := (OnlyChanges.setWait s (some x)).trans hframe
    have hsame : (Part.wait).same s u := hwait.trans hnone.symm
    exact (hall.mono (by simp [pcAndCycles])).of_same hsame

/-- Settles O37: neither event resolves a wait, so each is the write of one key. -/
theorem otherKeyEventsChangeOnlyTheKey : Obligations.OtherKeyEventsChangeOnlyTheKey := by
  intro k s hfault
  refine ⟨fun hedge => ?press, ?release⟩
  case press =>
    refine ⟨s.setKey k true, ?_, ?_, OnlyChanges.setKey s k true⟩
    · rw [applyEvent, keyPress_of_no_edge hfault hedge]
    · rw [State.keyDown_setKey, if_pos rfl]
  case release =>
    refine ⟨s.setKey k false, ?_, ?_, OnlyChanges.setKey s k false⟩
    · rw [applyEvent, keyRelease_of_no_fault k hfault]
    · rw [State.keyDown_setKey, if_pos rfl]

theorem toNat_countDown (b : Byte) : (countDown b).toNat = b.toNat - 1 := by
  rw [countDown]
  split
  case isTrue hzero => rw [hzero]; rfl
  case isFalse hpos =>
    have hne : b.toNat ≠ 0 := fun h => hpos (BitVec.eq_of_toNat_eq h)
    exact BitVec.toNat_sub_of_le (BitVec.le_def.mpr (Nat.one_le_iff_ne_zero.mpr hne))

theorem OnlyChanges.tick {s : State} (hfault : s.fault = none) : OnlyChanges [.delay, .sound] s (tick s) := by
  rw [tick_of_no_fault hfault]
  exact (OnlyChanges.setDt s _).trans (OnlyChanges.setSt _ _)

/-- n Ticks, by induction: each takes one from both timers, stopping at 0. -/
theorem applyEvents_ticks (n : Nat) {s : State} (hfault : s.fault = none) :
    ∃ t, applyEvents (List.replicate n .tick) s = .next t ∧ t.dt.toNat = s.dt.toNat - n ∧ t.st.toNat = s.st.toNat - n ∧
      OnlyChanges [.delay, .sound] s t := by
  induction n generalizing s with
  | zero => exact ⟨s, rfl, rfl, rfl, (OnlyChanges.refl s).mono (List.nil_subset _)⟩
  | succ n ih =>
    have htick := tick_of_no_fault hfault
    have hframe := OnlyChanges.tick hfault
    have hfault' : (tick s).fault = none := Eq.trans (hframe .fault (by simp)) hfault
    obtain ⟨t, hrun, hdt, hst, hrest⟩ := ih hfault'
    have hdelay : (tick s).dt.toNat = s.dt.toNat - 1 := by rw [htick]; exact toNat_countDown s.dt
    have hsound : (tick s).st.toNat = s.st.toNat - 1 := by rw [htick]; exact toNat_countDown s.st
    exact ⟨t, hrun, by omega, by omega, (hframe.trans hrest).mono (by simp)⟩

/-- Settles O39: the sound is active exactly when ST is not 0. -/
theorem ticksCountBothTimersDown : Obligations.TicksCountBothTimersDown := by
  intro n s hfault
  obtain ⟨t, hrun, hdt, hst, hframe⟩ := applyEvents_ticks n hfault
  refine ⟨t, hrun, hdt, hst, ?_, hframe⟩
  rw [soundActive_iff_st_ne_zero, hst]
  omega

end Sys2Proof.Machine
end

section
/-! The delivery of a key array (spec/60_exceptions.md R186): one event after another, for any list of keys; what the latch
holds afterwards, and which event resolves a wait. -/

namespace Sys2Proof.Machine

/-- The event that reports one key of an array. -/
def keyEvent (new : Vector Bool 16) (k : Key) : Event := if new[k.val] then .keyPress k else .keyRelease k

theorem keyArrayEvents_eq (new : Vector Bool 16) : keyArrayEvents new = (List.finRange 16).map (keyEvent new) := rfl

/-- The state with another key latch. -/
def State.setKeys (s : State) (keys : Vector Bool 16) : State := { s with keys := keys }

/-- The latch after the keys listed have been reported. -/
def deliver (new : Vector Bool 16) (ks : List Key) (keys : Vector Bool 16) : Vector Bool 16 :=
  ks.foldl (fun keys k => keys.set k.val new[k.val]) keys

theorem getElem_deliver (new : Vector Bool 16) (ks : List Key) (keys : Vector Bool 16) (j : Key) :
    (deliver new ks keys)[j.val] = if j ∈ ks then new[j.val] else keys[j.val] := by
  induction ks generalizing keys with
  | nil => rfl
  | cons k ks ih =>
    rw [deliver, List.foldl_cons, ← deliver, ih, Vector.getElem_set]
    by_cases hj : j = k
    · subst hj
      simp
    · have hne : k.val ≠ j.val := fun h => hj (Fin.ext h).symm
      simp [hj, hne]

theorem deliver_finRange (new keys : Vector Bool 16) : deliver new (List.finRange 16) keys = new := by
  refine Vector.ext fun j hj => ?_
  exact (getElem_deliver new _ keys ⟨j, hj⟩).trans (if_pos (List.mem_finRange _))

/-- The key is up in the state and down in the array. -/
def IsNewKey (new : Vector Bool 16) (s : State) (k : Key) : Prop := new[k.val] = true ∧ s.keyDown k = false

theorem applyEvent_keyEvent_of_no_edge {new : Vector Bool 16} {s : State} {k : Key} (hfault : s.fault = none)
    (hedge : s.wait = none ∨ ¬IsNewKey new s k) :
    applyEvent (keyEvent new k) s = .next (s.setKeys (s.keys.set k.val new[k.val])) := by
  rw [keyEvent]
  cases hnew : new[k.val] with
  | false => exact congrArg Host.Outcome.next (keyRelease_of_no_fault k hfault)
  | true =>
    have hdown : s.wait = none ∨ s.keyDown k = true :=
      hedge.imp_right fun h => Bool.eq_true_of_not_eq_false fun hup => h ⟨hnew, hup⟩
    exact congrArg Host.Outcome.next (keyPress_of_no_edge hfault hdown)

theorem applyEvent_keyEvent_of_edge {new : Vector Bool 16} {s : State} {x : Reg} {k : Key} (hfault : s.fault = none)
    (hwait : s.wait = some x) (hedge : IsNewKey new s k) :
    applyEvent (keyEvent new k) s = .next (resolveWait x k (s.setKeys (s.keys.set k.val new[k.val]))) := by
  obtain ⟨hnew, hup⟩ := hedge
  rw [keyEvent, hnew]
  exact congrArg Host.Outcome.next (keyPress_of_wait_of_up hfault hwait hup)

/-- Reporting a key leaves the other keys new that were, and no others. -/
theorem isNewKey_of_reported {new : Vector Bool 16} {s : State} {k j : Key} :
    IsNewKey new (s.setKeys (s.keys.set k.val new[k.val])) j ↔ j ≠ k ∧ IsNewKey new s j := by
  have hdown : (s.setKeys (s.keys.set k.val new[k.val])).keyDown j = if j = k then new[k.val] else s.keyDown j :=
    s.keyDown_setKey k new[k.val] j
  rw [IsNewKey, IsNewKey, hdown]
  by_cases hj : j = k
  · subst hj
    simp
  · simp [hj]

/-- Reporting keys of which none resolves a wait sets the latch and nothing else. -/
theorem applyEvents_keys_of_no_edge {new : Vector Bool 16} (ks : List Key) {s : State} (hfault : s.fault = none)
    (hedge : s.wait = none ∨ ∀ k ∈ ks, ¬IsNewKey new s k) :
    applyEvents (ks.map (keyEvent new)) s = .next (s.setKeys (deliver new ks s.keys)) := by
  induction ks generalizing s with
  | nil => rfl
  | cons k ks ih =>
    have hfirst := applyEvent_keyEvent_of_no_edge hfault (hedge.imp_right fun h => h k List.mem_cons_self)
    have hrest : s.wait = none ∨ ∀ j ∈ ks, ¬IsNewKey new (s.setKeys (s.keys.set k.val new[k.val])) j :=
      hedge.imp_right fun h j hj hnew => h j (List.mem_cons_of_mem k hj) (isNewKey_of_reported.mp hnew).2
    rw [List.map_cons, applyEvents_cons_next _ hfirst]
    exact ih (s := s.setKeys _) hfault hrest

/-- Reporting keys in ascending order while a key is awaited: the lowest new key resolves the wait. -/
theorem applyEvents_keys_of_lowest_edge {new : Vector Bool 16} {ks : List Key} (hsorted : ks.Pairwise (· < ·)) {s : State}
    {x : Reg} {k : Key} (hfault : s.fault = none) (hwait : s.wait = some x) (hk : k ∈ ks) (hnew : IsNewKey new s k)
    (hlowest : ∀ j < k, ¬IsNewKey new s j) :
    applyEvents (ks.map (keyEvent new)) s = .next (resolveWait x k (s.setKeys (deliver new ks s.keys))) := by
  induction ks generalizing s with
  | nil => cases hk
  | cons h ks ih =>
    obtain ⟨hbefore, hsorted'⟩ := List.pairwise_cons.mp hsorted
    by_cases hhk : h = k
    · subst hhk
      rw [List.map_cons, applyEvents_cons_next _ (applyEvent_keyEvent_of_edge hfault hwait hnew)]
      exact applyEvents_keys_of_no_edge ks (s := resolveWait x h (s.setKeys _)) hfault (.inl rfl)
    · have hmem : k ∈ ks := (List.mem_cons.mp hk).resolve_left (Ne.symm hhk)
      have hfirst := applyEvent_keyEvent_of_no_edge hfault (.inr (hlowest h (hbefore k hmem)))
      rw [List.map_cons, applyEvents_cons_next _ hfirst]
      exact ih hsorted' (s := s.setKeys _) hfault hwait hmem (isNewKey_of_reported.mpr ⟨Ne.symm hhk, hnew⟩)
        fun j hj hj' => hlowest j hj (isNewKey_of_reported.mp hj').2

/-- Whatever is awaited, the reports go through and leave the latch as they say. -/
theorem applyEvents_keys_next (new : Vector Bool 16) (ks : List Key) {s : State} (hfault : s.fault = none) :
    ∃ t, applyEvents (ks.map (keyEvent new)) s = .next t ∧ t.keys = deliver new ks s.keys := by
  induction ks generalizing s with
  | nil => exact ⟨s, rfl, rfl⟩
  | cons k ks ih =>
    have hfirst : ∃ u, applyEvent (keyEvent new k) s = .next u ∧ u.fault = none ∧
        u.keys = s.keys.set k.val new[k.val] := by
      by_cases hedge : s.wait = none ∨ ¬IsNewKey new s k
      · exact ⟨_, applyEvent_keyEvent_of_no_edge hfault hedge, hfault, rfl⟩
      · obtain ⟨hsome, hnew⟩ := not_or.mp hedge
        obtain ⟨x, hwait⟩ := Option.ne_none_iff_exists'.mp hsome
        exact ⟨_, applyEvent_keyEvent_of_edge hfault hwait (not_not.mp hnew), hfault, rfl⟩
    obtain ⟨u, hu, hfault', hkeys⟩ := hfirst
    obtain ⟨t, ht, hlatch⟩ := ih hfault'
    refine ⟨t, (applyEvents_cons_next _ hu).trans ht, ?_⟩
    rw [hlatch, hkeys]
    rfl

/-- Settles O38: the sixteen reports in ascending order leave the latch as the array is, and the cases are those of whether
one of them resolves a wait. -/
theorem keyArrayDeliversEveryKey : Obligations.KeyArrayDeliversEveryKey := by
  intro new s hfault
  obtain ⟨t, ht, hlatch⟩ := applyEvents_keys_next new (List.finRange 16) hfault
  rw [deliver_finRange] at hlatch
  have huntouched (hedge : s.wait = none ∨ ∀ k ∈ List.finRange 16, ¬IsNewKey new s k) : t = { s with keys := new } := by
    have hrun := applyEvents_keys_of_no_edge _ hfault hedge
    rw [deliver_finRange] at hrun
    exact Host.Outcome.next.inj (ht.symm.trans hrun)
  refine ⟨t, keyArrayEvents_eq new ▸ ht, hlatch, fun hnone => huntouched (.inl hnone), fun x hwait =>
    ⟨fun k hdown hup hlower => ?resolved, fun hheld => ?pending⟩⟩
  case resolved =>
    have hlowest : ∀ j < k, ¬IsNewKey new s j := fun j hj hnew =>
      absurd ((hlower j hj hnew.1).symm.trans hnew.2) (by decide)
    have hrun := applyEvents_keys_of_lowest_edge (List.pairwise_lt_finRange 16) hfault hwait (List.mem_finRange k)
      ⟨hdown, hup⟩ hlowest
    rw [deliver_finRange] at hrun
    exact Host.Outcome.next.inj (ht.symm.trans hrun)
  case pending => exact huntouched (.inr fun k _ hnew => absurd ((hheld k hnew.1).symm.trans hnew.2) (by decide))

end Sys2Proof.Machine
end

section
/-! What raises (spec/60_exceptions.md R170 to R178). -/

namespace Sys2Proof.Machine

/-- Settles O41: each condition is that of the instruction's raise. -/
theorem raisingInstructionsLeaveOnlyTheLatch : Obligations.RaisingInstructionsLeaveOnlyTheLatch := by
  intro x y n nnn s
  refine ⟨?ret, ?call, ?draw, ?decimal, ?store, ?load, ?pressed, ?released⟩
  case ret => exact execRet_of_zero
  case call => exact execCall_of_full nnn
  case draw => exact execDrwVxVyN_outside x y n
  case decimal => exact fun h => storeAtIndex_outside _ (Nat.succ_pos 2) (Nat.succ_le_succ h)
  case store =>
    exact fun h => storeAtIndex_outside _ (by simp) (by rw [s.length_regsUpTo]; exact Nat.succ_le_succ h)
  case load => exact fun h => execLdVxMem_outside x (Nat.succ_le_succ h)
  case pressed => exact execSkpVx_of_ge x
  case released => exact execSknpVx_of_ge x

end Sys2Proof.Machine
end
